-- ==== Sys2Proof/Word.lean ====
section
/-! DEFINITION. The word types of the machine (00_scope.md R5, R10, R11). -/

namespace Sys2Proof

/-- A word: every register, memory word, address and instruction is 16 bits wide (R5). -/
abbrev Word := BitVec 16

/-- One character: `CHAR_BITS` is 8 (R5). -/
abbrev Byte := BitVec 8

/-- The number of a general register, always a 3-bit field (R16). -/
abbrev RegNum := BitVec 3

end Sys2Proof
end

