-- ==== Sys2Proof/Syntax.lean ====
section
/-! DEFINITION. The instructions: one constructor for each of the 19 rows of spec/opcode_table.json (30_encoding.md R60,
R64). A constructor holds every bit of its word that the opcode does not fix, the bits the machine ignores (R61)
included, because a diagnostic record holds the whole instruction word (60_exceptions.md R118); log 15. -/

namespace Sys2Proof

/-- Fields in the order of the encoding, most significant first. `ign…` are the ignored bits of R61. -/
inductive Instr where
  /-- ADD, register form (R79). -/
  | addReg (dr sr1 : RegNum) (ign : BitVec 2) (sr2 : RegNum)
  /-- ADD, immediate form (R80). -/
  | addImm (dr sr1 : RegNum) (imm5 : BitVec 5)
  /-- AND, register form (R81). -/
  | andReg (dr sr1 : RegNum) (ign : BitVec 2) (sr2 : RegNum)
  /-- AND, immediate form (R82). -/
  | andImm (dr sr1 : RegNum) (imm5 : BitVec 5)
  /-- NOT (R83). -/
  | notReg (dr sr : RegNum) (ign : BitVec 6)
  /-- LD, PC-relative load (R85). -/
  | ld (dr : RegNum) (off9 : BitVec 9)
  /-- LDI, indirect load (R86). -/
  | ldi (dr : RegNum) (off9 : BitVec 9)
  /-- LDR, base plus offset load (R87). -/
  | ldr (dr base : RegNum) (off6 : BitVec 6)
  /-- LEA, load effective address (R88). -/
  | lea (dr : RegNum) (off9 : BitVec 9)
  /-- ST, PC-relative store (R89). -/
  | st (sr : RegNum) (off9 : BitVec 9)
  /-- STI, indirect store (R90). -/
  | sti (sr : RegNum) (off9 : BitVec 9)
  /-- STR, base plus offset store (R91). -/
  | str (sr base : RegNum) (off6 : BitVec 6)
  /-- BR, conditional branch; `nzp` is the mask n:z:p of bits 11:9 (R94). -/
  | br (nzp : BitVec 3) (off9 : BitVec 9)
  /-- JMP, and RET, which is JMP R7 (R96). -/
  | jmp (ignHi : BitVec 3) (base : RegNum) (ignLo : BitVec 6)
  /-- JSR, PC-relative call (R97). -/
  | jsr (off11 : BitVec 11)
  /-- JSRR, register call (R98). -/
  | jsrr (ignHi : BitVec 2) (base : RegNum) (ignLo : BitVec 6)
  /-- TRAP (R100). -/
  | trap (ign : BitVec 4) (trapvect8 : BitVec 8)
  /-- RTI, an invalid opcode in this design (R113). -/
  | rti (ign : BitVec 12)
  /-- RES, the reserved opcode (R114). -/
  | res (ign : BitVec 12)
  deriving DecidableEq, Repr

end Sys2Proof
end

