-- ==== Sys2Proof/WellFormed.lean ====
section
/-! DEFINITION. Well-formed instructions. The decoder validates nothing (30_encoding.md R61, R65) and every operand is a
fixed-width field (00_scope.md R16), so the types already say all there is: every term of Instr is well formed. The one
check the spec describes beside that is the assembler's: the canonical values of the ignored bits (R61, D24). -/

namespace Sys2Proof

/-- Every instruction is well formed: "No validation occurs at decode time" (R61). -/
def Instr.wf (_ : Instr) : Bool := true

/-- The ignored bits hold the values the textbook assembler writes: 0s, and 0b111111 in NOT (R61). PRESUMED by the spec
(D24), safe: no rule of the machine reads them; log 15. -/
def Instr.canonical : Instr → Bool
  | .addReg _ _ ign _ => ign == 0
  | .addImm _ _ _ => true
  | .andReg _ _ ign _ => ign == 0
  | .andImm _ _ _ => true
  | .notReg _ _ ign => ign == 0b111111#6
  | .ld _ _ => true
  | .ldi _ _ => true
  | .ldr _ _ _ => true
  | .lea _ _ => true
  | .st _ _ => true
  | .sti _ _ => true
  | .str _ _ _ => true
  | .br _ _ => true
  | .jmp ignHi _ ignLo => ignHi == 0 && ignLo == 0
  | .jsr _ => true
  | .jsrr ignHi _ ignLo => ignHi == 0 && ignLo == 0
  | .trap ign _ => ign == 0
  | .rti ign => ign == 0
  | .res ign => ign == 0

end Sys2Proof
end

