-- ==== Sys2Proof/Decode.lean ====
section
/-! DEFINITION. The decoder, the encoder and the opcode table (30_encoding.md R57-R66). An instruction is one 16-bit word
and memory holds words, so no byte order applies (20_memory.md R45): the decoder reads a word. It is total and refuses
nothing: "No word is illegal at decode time" (R65). -/

namespace Sys2Proof

/-! ## The decoder's fields (R59) -/

/-- `op`, bits 15:12. -/
def opcode (w : Word) : BitVec 4 := w.extractLsb' 12 4
/-- `DR`, and `SR` of the stores, bits 11:9. The stores' field is the spec's choice (D4; log 5). -/
def fieldDR (w : Word) : RegNum := w.extractLsb' 9 3
/-- `SR1` and `BaseR`, bits 8:6. -/
def fieldSR1 (w : Word) : RegNum := w.extractLsb' 6 3
/-- `SR2`, bits 2:0. -/
def fieldSR2 (w : Word) : RegNum := w.extractLsb' 0 3
/-- `imm_flag`, bit 5. -/
def immFlag (w : Word) : Bool := w.getLsbD 5
/-- `long_flag`, bit 11. -/
def longFlag (w : Word) : Bool := w.getLsbD 11
/-- `imm5`, bits 4:0. -/
def fieldImm5 (w : Word) : BitVec 5 := w.extractLsb' 0 5
/-- `offset6`, bits 5:0; the ignored bits 5:0 of NOT, JMP and JSRR. -/
def fieldOff6 (w : Word) : BitVec 6 := w.extractLsb' 0 6
/-- `PCoffset9`, bits 8:0. -/
def fieldOff9 (w : Word) : BitVec 9 := w.extractLsb' 0 9
/-- `PCoffset11`, bits 10:0. -/
def fieldOff11 (w : Word) : BitVec 11 := w.extractLsb' 0 11
/-- `trapvect8`, bits 7:0. -/
def fieldVect8 (w : Word) : BitVec 8 := w.extractLsb' 0 8
/-- The bits R61 says are ignored, `n` of them from bit `lo`. -/
def fieldIgnored (lo n : Nat) (w : Word) : BitVec n := w.extractLsb' lo n

/-- The opcode map of R64. Fourteen of the numbers are the spec's own choice (D2; log 5). The last arm is opcode 1111,
the only one the others leave. -/
def decode (w : Word) : Instr :=
  if opcode w = 0b0000#4 then .br (fieldDR w) (fieldOff9 w)
  else if opcode w = 0b0001#4 then
    if immFlag w then .addImm (fieldDR w) (fieldSR1 w) (fieldImm5 w)
    else .addReg (fieldDR w) (fieldSR1 w) (fieldIgnored 3 2 w) (fieldSR2 w)
  else if opcode w = 0b0010#4 then .ld (fieldDR w) (fieldOff9 w)
  else if opcode w = 0b0011#4 then .st (fieldDR w) (fieldOff9 w)
  else if opcode w = 0b0100#4 then
    if longFlag w then .jsr (fieldOff11 w)
    else .jsrr (fieldIgnored 9 2 w) (fieldSR1 w) (fieldOff6 w)
  else if opcode w = 0b0101#4 then
    if immFlag w then .andImm (fieldDR w) (fieldSR1 w) (fieldImm5 w)
    else .andReg (fieldDR w) (fieldSR1 w) (fieldIgnored 3 2 w) (fieldSR2 w)
  else if opcode w = 0b0110#4 then .ldr (fieldDR w) (fieldSR1 w) (fieldOff6 w)
  else if opcode w = 0b0111#4 then .str (fieldDR w) (fieldSR1 w) (fieldOff6 w)
  else if opcode w = 0b1000#4 then .rti (fieldIgnored 0 12 w)
  else if opcode w = 0b1001#4 then .notReg (fieldDR w) (fieldSR1 w) (fieldOff6 w)
  else if opcode w = 0b1010#4 then .ldi (fieldDR w) (fieldOff9 w)
  else if opcode w = 0b1011#4 then .sti (fieldDR w) (fieldOff9 w)
  else if opcode w = 0b1100#4 then .jmp (fieldDR w) (fieldSR1 w) (fieldOff6 w)
  else if opcode w = 0b1101#4 then .res (fieldIgnored 0 12 w)
  else if opcode w = 0b1110#4 then .lea (fieldDR w) (fieldOff9 w)
  else .trap (fieldIgnored 8 4 w) (fieldVect8 w)

/-! ## The encoder (R60) -/

/-- The word of an instruction, laid out from the formats of R60, bit 15 first. -/
def encode : Instr → Word
  | .addReg dr sr1 ign sr2 => 0b0001#4 ++ dr ++ sr1 ++ 0#1 ++ ign ++ sr2
  | .addImm dr sr1 imm5 => 0b0001#4 ++ dr ++ sr1 ++ 1#1 ++ imm5
  | .andReg dr sr1 ign sr2 => 0b0101#4 ++ dr ++ sr1 ++ 0#1 ++ ign ++ sr2
  | .andImm dr sr1 imm5 => 0b0101#4 ++ dr ++ sr1 ++ 1#1 ++ imm5
  | .notReg dr sr ign => 0b1001#4 ++ dr ++ sr ++ ign
  | .ld dr off9 => 0b0010#4 ++ dr ++ off9
  | .ldi dr off9 => 0b1010#4 ++ dr ++ off9
  | .ldr dr base off6 => 0b0110#4 ++ dr ++ base ++ off6
  | .lea dr off9 => 0b1110#4 ++ dr ++ off9
  | .st sr off9 => 0b0011#4 ++ sr ++ off9
  | .sti sr off9 => 0b1011#4 ++ sr ++ off9
  | .str sr base off6 => 0b0111#4 ++ sr ++ base ++ off6
  | .br nzp off9 => 0b0000#4 ++ nzp ++ off9
  | .jmp ignHi base ignLo => 0b1100#4 ++ ignHi ++ base ++ ignLo
  | .jsr off11 => 0b0100#4 ++ 1#1 ++ off11
  | .jsrr ignHi base ignLo => 0b0100#4 ++ 0#1 ++ ignHi ++ base ++ ignLo
  | .trap ign trapvect8 => 0b1111#4 ++ ign ++ trapvect8
  | .rti ign => 0b1000#4 ++ ign
  | .res ign => 0b1101#4 ++ ign

/-! ## The opcode table (INDEX.md, opcode_table.json) -/

/-- One row of opcode_table.json: `w` is the row's instruction when `w &&& mask = fixed`. -/
structure Row where
  mnemonic : String
  format : String
  fixed : Word
  mask : Word
  deriving DecidableEq, Repr

/-- The row's instruction is the one `w` encodes (INDEX.md: `w & mask == match`). -/
def rowCovers (r : Row) (w : Word) : Bool := w &&& r.mask == r.fixed

/-- The row of opcode_table.json that each constructor stands for, its numbers written out from the table. -/
def rowOf : Instr → Row
  | .addReg _ _ _ _ => ⟨"ADD", "OPR", 0x1000#16, 0xF020#16⟩
  | .addImm _ _ _ => ⟨"ADD", "OPI", 0x1020#16, 0xF020#16⟩
  | .andReg _ _ _ _ => ⟨"AND", "OPR", 0x5000#16, 0xF020#16⟩
  | .andImm _ _ _ => ⟨"AND", "OPI", 0x5020#16, 0xF020#16⟩
  | .notReg _ _ _ => ⟨"NOT", "UN", 0x9000#16, 0xF000#16⟩
  | .ld _ _ => ⟨"LD", "PC9", 0x2000#16, 0xF000#16⟩
  | .ldi _ _ => ⟨"LDI", "PC9", 0xA000#16, 0xF000#16⟩
  | .ldr _ _ _ => ⟨"LDR", "B6", 0x6000#16, 0xF000#16⟩
  | .lea _ _ => ⟨"LEA", "PC9", 0xE000#16, 0xF000#16⟩
  | .st _ _ => ⟨"ST", "PC9", 0x3000#16, 0xF000#16⟩
  | .sti _ _ => ⟨"STI", "PC9", 0xB000#16, 0xF000#16⟩
  | .str _ _ _ => ⟨"STR", "B6", 0x7000#16, 0xF000#16⟩
  | .br _ _ => ⟨"BR", "BR", 0x0000#16, 0xF000#16⟩
  | .jmp _ _ _ => ⟨"JMP", "JR", 0xC000#16, 0xF000#16⟩
  | .jsr _ => ⟨"JSR", "J11", 0x4800#16, 0xF800#16⟩
  | .jsrr _ _ _ => ⟨"JSRR", "JRR", 0x4000#16, 0xF800#16⟩
  | .trap _ _ => ⟨"TRAP", "TV", 0xF000#16, 0xF000#16⟩
  | .rti _ => ⟨"RTI", "NONE", 0x8000#16, 0xF000#16⟩
  | .res _ => ⟨"RES", "NONE", 0xD000#16, 0xF000#16⟩

/-- The 19 rows in the table's order. -/
def opcodeTable : List Row :=
  [rowOf (.addReg 0 0 0 0), rowOf (.addImm 0 0 0), rowOf (.andReg 0 0 0 0), rowOf (.andImm 0 0 0), rowOf (.notReg 0 0 0)]
  ++ [rowOf (.ld 0 0), rowOf (.ldi 0 0), rowOf (.ldr 0 0 0), rowOf (.lea 0 0)]
  ++ [rowOf (.st 0 0), rowOf (.sti 0 0), rowOf (.str 0 0 0)]
  ++ [rowOf (.br 0 0), rowOf (.jmp 0 0 0), rowOf (.jsr 0), rowOf (.jsrr 0 0 0)]
  ++ [rowOf (.trap 0 0), rowOf (.rti 0), rowOf (.res 0)]

/-! ## The host's entry to the decoder -/

/-- What the decoder reads from an instruction whose bits are `w`, numbered as the table numbers them, every bit from
`nbits` up being 0. An instruction is one word of 16 bits (R57), so no instruction has more: `none`. -/
def decodeTableWord (nbits w : Nat) : Option Instr :=
  if nbits ≤ 16 then some (decode (BitVec.ofNat 16 (w % 2 ^ nbits))) else none

end Sys2Proof
end

