-- ==== Sys2Proof/Config.lean ====
section
/-! DEFINITION. The parameters that 00_scope.md R6 leaves to the implementation or the host. Those that a step computes
with are arguments, the structure `Params`, and this file holds the values that R6 takes for them. Where R6 says OPEN and no
step computes with the value, the constant has no body. -/

namespace Sys2Proof

/-- The parameters that a step computes with (R6). They are arguments of the machine: a state carries them and no step
changes them (log 17). -/
structure Params where
  /-- `KBSR_ADDR`. -/
  kbsrAddr : Word
  /-- `KBDR_ADDR`. -/
  kbdrAddr : Word
  /-- `JSRR_BASE_BEFORE_LINK`. -/
  jsrrBaseBeforeLink : Bool
  deriving DecidableEq, Repr

/-- The value that R6 takes for `KBSR_ADDR`. DESIGN CHOICE of the spec (92_eei_decisions.md D5): 0xFE00. Unsafe; log 2. -/
def Config.kbsrAddr : Word := 0xFE00#16

/-- The value that R6 takes for `KBDR_ADDR`. DESIGN CHOICE of the spec (D5): 0xFE02. Unsafe; log 2. -/
def Config.kbdrAddr : Word := 0xFE02#16

/-- `START_PC` (R6): OPEN, set by the host, by convention 0x3000. DESIGN CHOICE: the convention. Unsafe; log 1. -/
def Config.startPc : Word := 0x3000#16

/-- The value that R6 takes for `JSRR_BASE_BEFORE_LINK`: false, so JSRR writes R7 before it reads BaseR. DESIGN CHOICE of
the spec (D9). Unsafe; log 4. -/
def Config.jsrrBaseBeforeLink : Bool := false

/-- The parameters at the values that R6 takes. -/
def Config.params : Params where
  kbsrAddr := Config.kbsrAddr
  kbdrAddr := Config.kbdrAddr
  jsrrBaseBeforeLink := Config.jsrrBaseBeforeLink

/-- `IN_PROMPT` (R6): OPEN, a finite list of bytes. It has no body, so no proof can see it. Safe; log 3. -/
opaque Config.inPrompt : List Byte

/-- `DIAG_TEXT` (R6): OPEN, the text the host prints for a diagnostic, from its place in the diagnostic stream and its code,
address, word and vector. What the text may depend on the spec leaves open; that it depends on these five and on nothing
else is the model's DESIGN CHOICE (log 8). Nothing in the machine reads it, as 60_exceptions.md R118 says. Safe. -/
opaque Config.diagText : Nat → Nat → Word → Word → Option Byte → List Byte

end Sys2Proof
end

