-- ==== Sys2Proof/Machine/State.lean ====
section
/-! DEFINITION. The state of the CORE (10_state.md R18-R31), as plain data, and the state right after reset
(70_reset_and_hazards.md R132). -/

namespace Sys2Proof.Machine

/-- The run state (R24). -/
inductive RunState where
  | running
  | halted
  deriving DecidableEq, Repr

/-- The two run-time anomalies (60_exceptions.md R116). -/
inductive Anomaly where
  | invalidOpcode
  | invalidTrapVector
  deriving DecidableEq, Repr

/-- One record of the diagnostic stream (R118): the code, the instruction's address and word, and the vector, which is
absent for InvalidOpcode. -/
structure Diag where
  anomaly : Anomaly
  addr : Word
  word : Word
  vector : Option Byte
  deriving DecidableEq, Repr

/-- A trap routine between two host moves: GETC or IN held for input, or PUTS or PUTSP about to read the word at `a`
(43_trap.md R102, R105, R109). The model's own, DESIGN CHOICE, safe; log 10 and 11. -/
inductive Routine where
  | getc
  | inChar
  | puts (a : Word)
  | putsp (a : Word)
  deriving DecidableEq, Repr

/-- The memory array `M` (R28): pairs of an address and the word it holds, addresses strictly rising, no word 0x0000,
which is what an unlisted address reads as. A cell is a word because a word is the smallest thing an address names
(20_memory.md R39); log 9. -/
abbrev Memory := List (Nat × Word)

/-- The state tuple of R31, `routine`, and the parameters of the step. -/
structure State where
  /-- R0-R7 (R19). -/
  regs : Vector Word 8
  /-- The address of the next instruction to fetch (R21). -/
  pc : Word
  /-- COND, a 16-bit slot: N = 0x0004, Z = 0x0002, P = 0x0001 (R22). -/
  cond : Word
  /-- The memory array (R28). -/
  mem : Memory
  /-- The held word of KBSR, not an array cell (R25, R27). -/
  kbsr : Word
  /-- The held word of KBDR, not an array cell (R26, R27). -/
  kbdr : Word
  /-- Running or Halted (R24). -/
  run : RunState
  /-- Console input, oldest byte first (00_scope.md R8). -/
  inq : List Byte
  /-- Console output, oldest byte first (R9). -/
  out : List Byte
  /-- The diagnostic stream, oldest record first (60_exceptions.md R118). -/
  diag : List Diag
  /-- The trap routine in progress; the model's own field (log 10). -/
  routine : Option Routine
  /-- The arguments of the step that are fixed for a machine (R31, 00_scope.md R6). No step writes them; log 17. -/
  params : Params
  deriving DecidableEq, Repr

/-- Why the CORE has no step. The hardware itself has no fault (60_exceptions.md R116, R117); log 12. -/
inductive Fault where
  /-- Raised by `step` when the run state is Halted: "A Halted CORE has no step" (70_reset_and_hazards.md R137). Safe. -/
  | halted
  /-- Raised by `step` when a GETC or IN is held and `inq` is empty: ReadChar "has no step" until the host appends a
  byte (00_scope.md R8, 43_trap.md R102). The state stays as it is for the host's move. Safe. -/
  | awaitingInput
  deriving DecidableEq, Repr

/-- Why an instruction has no meaning. -/
inductive Refusal where
  /-- Raised by a dispatch arm that has no meaning yet; no arm is left so. Safe. -/
  | notModelled (mnemonic : String)
  deriving DecidableEq, Repr

/-- What an instruction answers. -/
abbrev Result := Host.Outcome State Fault Refusal

/-- The machine right after reset (R132), before the host loads an image, sets PC and supplies input. PC is the spec's
conventional origin (DESIGN CHOICE, unsafe, log 1), the input queue is empty (DESIGN CHOICE, unsafe, log 13) and the parameters have the values
that 00_scope.md R6 takes (log 2, log 4, log 17). -/
def State.reset : State where
  regs := Vector.replicate 8 0x0000#16
  pc := Config.startPc
  cond := 0x0002#16
  mem := []
  kbsr := 0x0000#16
  kbdr := 0x0000#16
  run := .running
  inq := []
  out := []
  diag := []
  routine := none
  params := Config.params

end Sys2Proof.Machine
end

