-- ==== Sys2Proof/Machine/Flags.lean ====
section
/-! DEFINITION. The condition flags (00_scope.md R13, 10_state.md R22). -/

namespace Sys2Proof.Machine

/-- N in COND (R22). The positions of the three flags are the spec's choice (D3); log 5. -/
def flagN : Word := 0x0004#16
/-- Z in COND (R22). -/
def flagZ : Word := 0x0002#16
/-- P in COND (R22). -/
def flagP : Word := 0x0001#16

/-- The COND that `setcc(v)` writes (R13, R22). -/
def condOf (v : Word) : Word := if v.msb then flagN else if v = 0x0000#16 then flagZ else flagP

/-- `setcc(v)`. -/
def State.setcc (s : State) (v : Word) : State := { s with cond := condOf v }

end Sys2Proof.Machine
end

