-- ==== Sys2Proof/Machine/Ops.lean ====
section
/-! DEFINITION. The named operations over registers, memory, the keyboard registers, the console and the diagnostic
stream (00_scope.md R7, R13; 20_memory.md R40-R44; 60_exceptions.md R118, R121). -/

namespace Sys2Proof.Machine

/-! ## General registers (10_state.md R19) -/

/-- `x[i]`. -/
def State.reg (s : State) (i : RegNum) : Word := s.regs[i.toNat]'i.isLt

/-- `x[i] <- v`. No register is hardwired (R19). -/
def State.setReg (s : State) (i : RegNum) (v : Word) : State := { s with regs := s.regs.set i.toNat v i.isLt }

/-- A write of a destination register with the flags set from it: `x[i] <- v; setcc(v)`. -/
def State.setRegCC (s : State) (i : RegNum) (v : Word) : State := (s.setReg i v).setcc v

/-! ## The memory array (10_state.md R28) -/

/-- `M[a]`; an address not listed holds the reset word 0x0000. -/
def Memory.read : Memory → Nat → Word
  | [], _ => 0x0000#16
  | (b, v) :: rest, a => if b = a then v else Memory.read rest a

/-- The array without a listed word at `a`. -/
def Memory.erase : Memory → Nat → Memory
  | [], _ => []
  | (b, v) :: rest, a => if b = a then Memory.erase rest a else (b, v) :: Memory.erase rest a

/-- The array with `v` listed at `a`, before the first greater address. -/
def Memory.insert : Memory → Nat → Word → Memory
  | [], a, v => [(a, v)]
  | (b, u) :: rest, a, v => if a < b then (a, v) :: (b, u) :: rest else (b, u) :: Memory.insert rest a v

/-- `M[a] <- v`; writing 0x0000 leaves the address unlisted. -/
def Memory.write (m : Memory) (a : Nat) (v : Word) : Memory :=
  if v = 0x0000#16 then Memory.erase m a else Memory.insert (Memory.erase m a) a v

/-- Every listed address is at least `lo` and inside the 65,536 words, addresses rise strictly, and no listed word is
0x0000. -/
def Memory.wfFrom : Nat → Memory → Bool
  | _, [] => true
  | lo, (a, v) :: rest => decide (lo ≤ a) && decide (a < 65536) && decide (v ≠ 0x0000#16) && Memory.wfFrom (a + 1) rest

/-- The one canonical form of a memory. -/
def Memory.wf (m : Memory) : Bool := Memory.wfFrom 0 m

/-- The array cell `M[a]`, with no intercept. -/
def State.peek (s : State) (a : Word) : Word := s.mem.read a.toNat

/-- `M[a] <- v`, with no intercept. -/
def State.poke (s : State) (a : Word) (v : Word) : State := { s with mem := s.mem.write a.toNat v }

/-! ## The console (00_scope.md R7-R9) -/

/-- `ReadChar()`: the head of `inq` and the state without it, or `none` where the queue is empty and the read holds
(R8). `KeyAvailable()` is that it is not `none`. -/
def State.readChar (s : State) : Option (Byte × State) :=
  match s.inq with
  | [] => none
  | c :: rest => some (c, { s with inq := rest })

/-- `Emit(b)` for each byte of a list, in order (R9). -/
def State.emit (s : State) (bs : List Byte) : State := { s with out := s.out ++ bs }

/-- `Flush()` "changes nothing in the model" (R9). -/
def State.flush (s : State) : State := s

/-! ## The memory port (20_memory.md R40-R44) -/

/-- `KbsrRead()` (R41): poll the input; a waiting key is taken and latched into KBDR. When a key is consumed is the
spec's choice (D6); log 6. -/
def State.kbsrRead (s : State) : Word × State :=
  match s.readChar with
  | some (c, s1) => (0x8000#16, { s1 with kbsr := 0x8000#16, kbdr := c.setWidth 16 })
  | none => (0x0000#16, { s with kbsr := 0x0000#16 })

/-- `MemRead(a, 1)` (R40), the one read path: the word read and the state after the read. Every read of the machine
goes through it (R42). -/
def State.memRead (s : State) (a : Word) : Word × State :=
  if a = s.params.kbsrAddr then s.kbsrRead
  else if a = s.params.kbdrAddr then (s.kbdr, s)
  else (s.peek a, s)

/-- `MemWrite(a, 1, v)` (R43), the one write path: discarded at the two keyboard registers (R44). -/
def State.memWrite (s : State) (a v : Word) : State :=
  if a = s.params.kbsrAddr ∨ a = s.params.kbdrAddr then s else s.poke a v

/-- The fetch of a step (70_reset_and_hazards.md R135): the word at PC, read through the port, and the state with PC
incremented modulo 2^16. -/
def State.fetch (s : State) : Word × State :=
  ((s.memRead s.pc).1, { (s.memRead s.pc).2 with pc := (s.memRead s.pc).2.pc + 1 })

/-! ## Anomalies, trap entry, halt -/

/-- The code of an anomaly (60_exceptions.md R116; the numbers are the spec's own, D18). -/
def Anomaly.code : Anomaly → Nat
  | .invalidOpcode => 1
  | .invalidTrapVector => 2

/-- The text the host prints for the record `d` at place `k` of the stream: the parameter DIAG_TEXT, read by nothing in the
machine (R118). What it may depend on is the model's DESIGN CHOICE (log 8). -/
def Diag.text (k : Nat) (d : Diag) : List Byte := Config.diagText k d.anomaly.code d.addr d.word d.vector

/-- `raise K(info)` (R118): append one record; `pc` is already past the instruction, so the record's address is
`pc - 1`. It stops nothing and saves nothing (R117). -/
def State.raise (s : State) (k : Anomaly) (w : Word) (vector : Option Byte) : State :=
  { s with diag := s.diag ++ [⟨k, s.pc - 1, w, vector⟩] }

/-- Trap entry (R121): it saves exactly one value, the return address, in R7. The return is implicit (R122): the next
step fetches at `pc`, so there is no return operation. -/
def State.trapEntry (s : State) : State := s.setReg 7 s.pc

/-- `halt` (R13): the run state becomes Halted. -/
def State.halt (s : State) : State := { s with run := .halted }

end Sys2Proof.Machine
end

