-- ==== Sys2Proof/Machine/Operands.lean ====
section
/-! DEFINITION. The operand forms (30_encoding.md R62, R63) and the bytes of a word. -/

namespace Sys2Proof.Machine

/-- `sext_N` (00_scope.md R12): copy bit N-1 into every higher bit. -/
def sext {n : Nat} (f : BitVec n) : Word := f.signExtend 16

/-- `zext_N` (R12): fill the higher bits with zeros. -/
def zext {n : Nat} (f : BitVec n) : Word := f.setWidth 16

/-- `v[7:0]`. -/
def lowByte (v : Word) : Byte := v.extractLsb' 0 8

/-- `v[15:8]`. -/
def highByte (v : Word) : Byte := v.extractLsb' 8 8

/-- The PC-relative form (R63): `pc` is the address of the instruction plus one (R15), offsets are words (R62) and the sum
wraps (20_memory.md R50). -/
def State.pcRel {n : Nat} (s : State) (off : BitVec n) : Word := s.pc + sext off

/-- The base plus offset form (R63). -/
def State.baseOff (s : State) (base : RegNum) (off6 : BitVec 6) : Word := s.reg base + sext off6

/-- The indirect form (R63): the address is itself read from memory, through the port (R42), so the read may take a
key. -/
def State.indirect (s : State) (off9 : BitVec 9) : Word × State := s.memRead (s.pcRel off9)

end Sys2Proof.Machine
end

