-- ==== Sys2Proof/Machine/Alu.lean ====
section
/-! DEFINITION. ADD, AND and NOT (40_alu.md R79-R84). Every ALU value is 16 bits and sums are modulo 2^16; nothing is
recorded of a carry or an overflow (R84). -/

namespace Sys2Proof.Machine

/-- ADD DR, SR1, SR2 (R79). -/
def execAddReg (dr sr1 sr2 : RegNum) (s : State) : Result :=
  .next (s.setRegCC dr (s.reg sr1 + s.reg sr2))

/-- ADD DR, SR1, #imm5 (R80). -/
def execAddImm (dr sr1 : RegNum) (imm5 : BitVec 5) (s : State) : Result :=
  .next (s.setRegCC dr (s.reg sr1 + sext imm5))

/-- AND DR, SR1, SR2 (R81). -/
def execAndReg (dr sr1 sr2 : RegNum) (s : State) : Result :=
  .next (s.setRegCC dr (s.reg sr1 &&& s.reg sr2))

/-- AND DR, SR1, #imm5 (R82). -/
def execAndImm (dr sr1 : RegNum) (imm5 : BitVec 5) (s : State) : Result :=
  .next (s.setRegCC dr (s.reg sr1 &&& sext imm5))

/-- NOT DR, SR (R83). -/
def execNotReg (dr sr : RegNum) (s : State) : Result :=
  .next (s.setRegCC dr (~~~ s.reg sr))

end Sys2Proof.Machine
end

