-- ==== Sys2Proof/Machine/Control.lean ====
section
/-! DEFINITION. BR, JMP, JSR and JSRR (42_control.md R94-R99). None of them writes COND. -/

namespace Sys2Proof.Machine

/-- `pc <- target`. -/
def State.jump (s : State) (target : Word) : State := { s with pc := target }

/-- BR (R94): the mask n:z:p lines up with COND's N:Z:P. -/
def execBr (nzp : BitVec 3) (off9 : BitVec 9) (s : State) : Result :=
  .next (if zext nzp &&& s.cond ≠ 0x0000#16 then s.jump (s.pcRel off9) else s)

/-- JMP BaseR (R96). -/
def execJmp (base : RegNum) (s : State) : Result :=
  .next (s.jump (s.reg base))

/-- JSR label (R97): R7 gets the return address; the target is relative to the same PC. -/
def execJsr (off11 : BitVec 11) (s : State) : Result :=
  .next ((s.setReg 7 s.pc).jump (s.pcRel off11))

/-- JSRR's two orders (R98): the base read before the link is written, or after. They differ for BaseR = R7 only. -/
def State.linkJump (s : State) (baseFirst : Bool) (base : RegNum) : State :=
  (s.setReg 7 s.pc).jump (if baseFirst then s.reg base else (s.setReg 7 s.pc).reg base)

/-- JSRR BaseR (R98), in the order the parameter selects (log 4). -/
def execJsrr (base : RegNum) (s : State) : Result :=
  .next (s.linkJump s.params.jsrrBaseBeforeLink base)

end Sys2Proof.Machine
end

