-- ==== Sys2Proof/Machine/LoadStore.lean ====
section
/-! DEFINITION. LD, LDI, LDR, LEA, ST, STI and STR (41_load_store.md R85-R91). Every access goes through the memory
port; stores never change COND. -/

namespace Sys2Proof.Machine

/-- `v <- MemRead(ea, 1); x[DR] <- v; setcc(v)`. -/
def State.load (s : State) (dr : RegNum) (ea : Word) : State :=
  (s.memRead ea).2.setRegCC dr (s.memRead ea).1

/-- LD DR, label (R85). -/
def execLd (dr : RegNum) (off9 : BitVec 9) (s : State) : Result :=
  .next (s.load dr (s.pcRel off9))

/-- LDI DR, label (R86): the pointer is read first, then the word it points at. -/
def execLdi (dr : RegNum) (off9 : BitVec 9) (s : State) : Result :=
  .next ((s.indirect off9).2.load dr (s.indirect off9).1)

/-- LDR DR, BaseR, #offset6 (R87). -/
def execLdr (dr base : RegNum) (off6 : BitVec 6) (s : State) : Result :=
  .next (s.load dr (s.baseOff base off6))

/-- LEA DR, label (R88): no memory access; it does set the flags (90_conflicts.md C5). -/
def execLea (dr : RegNum) (off9 : BitVec 9) (s : State) : Result :=
  .next (s.setRegCC dr (s.pcRel off9))

/-- ST SR, label (R89). -/
def execSt (sr : RegNum) (off9 : BitVec 9) (s : State) : Result :=
  .next (s.memWrite (s.pcRel off9) (s.reg sr))

/-- STI SR, label (R90): the pointer read may poll the keyboard. -/
def execSti (sr : RegNum) (off9 : BitVec 9) (s : State) : Result :=
  .next ((s.indirect off9).2.memWrite (s.indirect off9).1 ((s.indirect off9).2.reg sr))

/-- STR SR, BaseR, #offset6 (R91). -/
def execStr (sr base : RegNum) (off6 : BitVec 6) (s : State) : Result :=
  .next (s.memWrite (s.baseOff base off6) (s.reg sr))

end Sys2Proof.Machine
end

