-- ==== Sys2Proof/Machine/Reserved.lean ====
section
/-! DEFINITION. RTI and RES (44_reserved.md R113-R115): each reports InvalidOpcode and is a no-operation besides. -/

namespace Sys2Proof.Machine

/-- RTI (R113). -/
def execRti (ign : BitVec 12) (s : State) : Result :=
  .next (s.raise .invalidOpcode (encode (.rti ign)) none)

/-- RES (R114). -/
def execRes (ign : BitVec 12) (s : State) : Result :=
  .next (s.raise .invalidOpcode (encode (.res ign)) none)

end Sys2Proof.Machine
end

