-- ==== Sys2Proof/Machine/Trap.lean ====
section
/-! DEFINITION. TRAP, its six routines and the resumption of a routine in progress (43_trap.md R100-R110). -/

namespace Sys2Proof.Machine

/-! ## Character input: GETC and IN -/

/-- GETC from its ReadChar on (R102): held while there is no input. -/
def State.getc (s : State) : State :=
  match s.readChar with
  | none => { s with routine := some .getc }
  | some (c, s1) => { s1 with routine := none }.setRegCC 0 (zext c)

/-- IN from its ReadChar on (R105), the prompt being out already: held while there is no input. -/
def State.inChar (s : State) : State :=
  match s.readChar with
  | none => { s with routine := some .inChar }
  | some (c, s1) => ({ s1 with routine := none }.emit [c]).setRegCC 0 (zext c)

/-! ## Strings: PUTS and PUTSP -/

/-- One word of PUTS (R104): the bytes it emits, and whether the string goes on. -/
def putsWord (v : Word) : List Byte × Bool :=
  if v = 0x0000#16 then ([], false) else ([lowByte v], true)

/-- One word of PUTSP (R106): each byte is checked in output order (D13; log 7). -/
def putspWord (v : Word) : List Byte × Bool :=
  if lowByte v = 0x00#8 then ([], false)
  else if highByte v = 0x00#8 then ([lowByte v], false)
  else ([lowByte v, highByte v], true)

/-- Print from address `a` on, for at most `n` words. Where `n` words have not ended the string, the routine stands
before the word at the address it has reached, as `hold` records. -/
def State.printWords (word : Word → List Byte × Bool) (hold : Word → Routine) : Nat → Word → State → State
  | 0, a, s => { s with routine := some (hold a) }
  | n + 1, a, s =>
    if (word (s.memRead a).1).2 then
      State.printWords word hold n (a + 1) ((s.memRead a).2.emit (word (s.memRead a).1).1)
    else
      { (s.memRead a).2.emit (word (s.memRead a).1).1 with routine := none }

/-- How many words PUTS or PUTSP reads from `a` on before it next comes to the address `kbsr`, the word at `a` counted. -/
def wordsToKbsr (kbsr a : Word) : Nat := (kbsr - (a + 1)).toNat + 1

/-- The loop of PUTS and PUTSP from address `a` on (R104, R106). It runs inside one step up to its next poll of
KBSR, the only read before which a host move matters (R109), and stands there for the next step; log 11. -/
def State.print (s : State) (word : Word → List Byte × Bool) (hold : Word → Routine) (a : Word) : State :=
  State.printWords word hold (wordsToKbsr s.params.kbsrAddr a) a s

/-! ## The dispatcher (R101) -/

/-- GETC (R102). -/
def trapGetc (s : State) : State := s.getc

/-- OUT (R103). -/
def trapOut (s : State) : State := s.emit [lowByte (s.reg 0)]

/-- PUTS (R104). -/
def trapPuts (s : State) : State := s.print putsWord .puts (s.reg 0)

/-- IN (R105): the prompt is emitted before the read. -/
def trapIn (s : State) : State := (s.emit Config.inPrompt).inChar

/-- PUTSP (R106). -/
def trapPutsp (s : State) : State := s.print putspWord .putsp (s.reg 0)

/-- HALT (R107): it emits nothing of its own (D19; log 7). -/
def trapHalt (s : State) : State := s.flush.halt

/-- Any other vector (R108). -/
def trapInvalid (w : Word) (vec : BitVec 8) (s : State) : State := s.raise .invalidTrapVector w (some vec)

/-- The action for a vector (R101); `w` is the instruction word, for the diagnostic. -/
def dispatchTrap (w : Word) (vec : BitVec 8) (s : State) : State :=
  if vec = 0x20#8 then trapGetc s
  else if vec = 0x21#8 then trapOut s
  else if vec = 0x22#8 then trapPuts s
  else if vec = 0x23#8 then trapIn s
  else if vec = 0x24#8 then trapPutsp s
  else if vec = 0x25#8 then trapHalt s
  else trapInvalid w vec s

/-- TRAP (R100): R7 is written for every vector, then the routine runs. -/
def execTrap (ign : BitVec 4) (trapvect8 : BitVec 8) (s : State) : Result :=
  .next (dispatchTrap (encode (.trap ign trapvect8)) trapvect8 s.trapEntry)

/-! ## A routine in progress -/

/-- The next part of a routine in progress (R109). A GETC or IN with no input has no step; PUTS and PUTSP go on. -/
def resume (r : Routine) (s : State) : Result :=
  match r with
  | .getc => if s.readChar.isSome then .next s.getc else .fault .awaitingInput
  | .inChar => if s.readChar.isSome then .next s.inChar else .fault .awaitingInput
  | .puts a => .next (s.print putsWord .puts a)
  | .putsp a => .next (s.print putspWord .putsp a)

end Sys2Proof.Machine
end

