-- ==== Sys2Proof/Machine/Dispatch.lean ====
section
/-! DEFINITION. The dispatch of a decoded instruction (70_reset_and_hazards.md R135). A bit the machine ignores
(30_encoding.md R61) reaches no meaning, except as part of the word of a diagnostic record. -/

namespace Sys2Proof.Machine

def exec (i : Instr) (s : State) : Host.Outcome State Fault Refusal :=
  match i with
  -- 40_alu.md
  | .addReg dr sr1 _ sr2 => Sys2Proof.Machine.execAddReg dr sr1 sr2 s
  | .addImm dr sr1 imm5 => Sys2Proof.Machine.execAddImm dr sr1 imm5 s
  | .andReg dr sr1 _ sr2 => Sys2Proof.Machine.execAndReg dr sr1 sr2 s
  | .andImm dr sr1 imm5 => Sys2Proof.Machine.execAndImm dr sr1 imm5 s
  | .notReg dr sr _ => Sys2Proof.Machine.execNotReg dr sr s
  -- 41_load_store.md
  | .ld dr off9 => Sys2Proof.Machine.execLd dr off9 s
  | .ldi dr off9 => Sys2Proof.Machine.execLdi dr off9 s
  | .ldr dr base off6 => Sys2Proof.Machine.execLdr dr base off6 s
  | .lea dr off9 => Sys2Proof.Machine.execLea dr off9 s
  | .st sr off9 => Sys2Proof.Machine.execSt sr off9 s
  | .sti sr off9 => Sys2Proof.Machine.execSti sr off9 s
  | .str sr base off6 => Sys2Proof.Machine.execStr sr base off6 s
  -- 42_control.md
  | .br nzp off9 => Sys2Proof.Machine.execBr nzp off9 s
  | .jmp _ base _ => Sys2Proof.Machine.execJmp base s
  | .jsr off11 => Sys2Proof.Machine.execJsr off11 s
  | .jsrr _ base _ => Sys2Proof.Machine.execJsrr base s
  -- 43_trap.md
  | .trap ign trapvect8 => Sys2Proof.Machine.execTrap ign trapvect8 s
  -- 44_reserved.md
  | .rti ign => Sys2Proof.Machine.execRti ign s
  | .res ign => Sys2Proof.Machine.execRes ign s

end Sys2Proof.Machine
end

