-- ==== Sys2Proof/Machine/HostPort.lean ====
section
/-! DEFINITION. The host's moves (00_scope.md R7, R8; 70_reset_and_hazards.md R133, R134, R139). They stand beside `step`:
the CORE makes none of them (log 13). -/

namespace Sys2Proof.Machine

/-- The machine with the given parameters (00_scope.md R6). They are chosen before the run; log 17. -/
def State.configure (s : State) (p : Params) : State := { s with params := p }

/-- The host writes an array cell before the run, also one under a keyboard register (10_state.md R27). -/
def State.hostWrite (s : State) (a v : Word) : State := s.poke a v

/-- The host loads one program image (R134): its words go to consecutive addresses from the origin on. -/
def State.loadImage (s : State) (origin : Word) : List Word → State
  | [] => s
  | w :: ws => State.loadImage (s.hostWrite origin w) (origin + 1) ws

/-- The host loads several images, each an origin and its words, in order: later ones overwrite (R134). -/
def State.loadImages (s : State) : List (Word × List Word) → State
  | [] => s
  | im :: ims => State.loadImages (s.loadImage im.1 im.2) ims

/-- The host sets PC before the first step (R133). -/
def State.hostSetPc (s : State) (pc : Word) : State := { s with pc := pc }

/-- The host appends one byte of console input (R8, R139). -/
def State.supplyInput (s : State) (b : Byte) : State := { s with inq := s.inq ++ [b] }

end Sys2Proof.Machine
end

