-- ==== Sys2Proof/Machine/Step.lean ====
section
/-! DEFINITION. One step of the CORE (70_reset_and_hazards.md R135, R137, R146). -/

namespace Sys2Proof.Machine

/-- One step. A Halted CORE has none (R137). A routine in progress goes on before the next fetch (43_trap.md R109).
Otherwise the CORE fetches through the memory port, increments PC, decodes and executes (R135). -/
def step (s : State) : Host.Outcome State Fault Refusal :=
  match s.run with
  | .halted => .fault .halted
  | .running =>
    match s.routine with
    | some r => resume r s
    | none => exec (decode s.fetch.1) s.fetch.2

/-- `a` names neither keyboard register, so a fetch at `a` reads the array cell (20_memory.md R40). -/
def State.fetchesCell (s : State) (a : Word) : Bool := a ≠ s.params.kbsrAddr && a ≠ s.params.kbdrAddr

/-- `s` with an instruction placed where `step` fetches next: what loading a program image and setting PC amounts to for
one word (log 14). The run state is Running and no routine is in progress, as R132 leaves them; the instruction goes to the
array cell at PC, and where PC names a keyboard register, whose cell no fetch can reach (10_state.md R27), PC is first set
to START_PC, or to the first word after it that is no keyboard register. Bits from `nbits` up are 0. -/
def State.withFetchWord (s : State) (nbits w : Nat) : State :=
  let pc := if s.fetchesCell s.pc then s.pc
    else if s.fetchesCell Config.startPc then Config.startPc
    else if s.fetchesCell (Config.startPc + 1) then Config.startPc + 1
    else Config.startPc + 2
  State.hostWrite { s with run := .running, routine := none, pc := pc } pc (BitVec.ofNat 16 (w % 2 ^ nbits))

end Sys2Proof.Machine
end

