-- ==== Sys2Proof/Safety.lean ====
section
/-! DEFINITION. The terms claims use: what an instruction keeps, the invariant of the machine, and the runs of the CORE
and its host. -/

namespace Sys2Proof.Machine

/-! ## Frames -/

/-- Every general register but the listed ones holds what it held. -/
def KeepsRegs (except : List RegNum) (s t : State) : Prop := ∀ r : RegNum, r ∉ except → t.reg r = s.reg r

/-- Every word of the memory array holds what it held. -/
def KeepsMem (s t : State) : Prop := ∀ a : Word, t.peek a = s.peek a

/-- Every word of the memory array but the one at `ea` holds what it held. -/
def KeepsMemBut (ea : Word) (s t : State) : Prop := ∀ a : Word, a ≠ ea → t.peek a = s.peek a

/-- The keyboard registers and the input queue are unchanged. -/
def KeepsKeyboard (s t : State) : Prop := t.kbsr = s.kbsr ∧ t.kbdr = s.kbdr ∧ t.inq = s.inq

/-- The run state and the routine in progress are unchanged. -/
def KeepsRun (s t : State) : Prop := t.run = s.run ∧ t.routine = s.routine

/-- The output and diagnostic streams are unchanged. -/
def KeepsStreams (s t : State) : Prop := t.out = s.out ∧ t.diag = s.diag

/-- Nothing changes but PC, COND and the listed registers. -/
def KeepsRest (except : List RegNum) (s t : State) : Prop :=
  KeepsRegs except s t ∧ KeepsMem s t ∧ KeepsKeyboard s t ∧ KeepsRun s t ∧ KeepsStreams s t

/-- COND says the sign of `v`: "0 → Zero; high bit set → Negative; else → Positive" (10_state.md R22). -/
def FlagsMatch (t : State) (v : Word) : Prop :=
  (v.toInt < 0 → t.cond = 0x0004#16) ∧ (v = 0x0000#16 → t.cond = 0x0002#16) ∧ (0 < v.toInt → t.cond = 0x0001#16)

/-- An address of plain storage: neither keyboard register (20_memory.md R49). -/
def Plain (s : State) (a : Word) : Prop := a ≠ s.params.kbsrAddr ∧ a ≠ s.params.kbdrAddr

/-- The addresses from `a` on, wrapping, read as the words `ws`, and none of them is KBSR_ADDR. -/
def WordsAt (s : State) : Word → List Word → Prop
  | _, [] => True
  | a, w :: ws => a ≠ s.params.kbsrAddr ∧ (s.memRead a).1 = w ∧ WordsAt s (a + 1) ws

/-- The CORE is about to fetch: Running, with no routine in progress. -/
def Idle (s : State) : Prop := s.run = .running ∧ s.routine = none

/-! ## The classes of instructions the spec's whole-machine rules name -/

/-- The registers an instruction may write (10_state.md R19): DR; R7 for JSR, JSRR and TRAP; R0 for GETC and IN. -/
def writtenRegs : Instr → List RegNum
  | .addReg dr _ _ _ | .addImm dr _ _ | .andReg dr _ _ _ | .andImm dr _ _ | .notReg dr _ _ => [dr]
  | .ld dr _ | .ldi dr _ | .ldr dr _ _ | .lea dr _ => [dr]
  | .st _ _ | .sti _ _ | .str _ _ _ => []
  | .br _ _ | .jmp _ _ _ => []
  | .jsr _ | .jsrr _ _ _ => [7]
  | .trap _ vec => if vec = 0x20#8 ∨ vec = 0x23#8 then [0, 7] else [7]
  | .rti _ | .res _ => []

/-- The instructions that may write COND (R22): ADD, AND, NOT, LD, LDI, LDR, LEA, and the GETC and IN routines. -/
def setsFlags : Instr → Bool
  | .addReg _ _ _ _ | .addImm _ _ _ | .andReg _ _ _ _ | .andImm _ _ _ | .notReg _ _ _ => true
  | .ld _ _ | .ldi _ _ | .ldr _ _ _ | .lea _ _ => true
  | .st _ _ | .sti _ _ | .str _ _ _ | .br _ _ | .jmp _ _ _ | .jsr _ | .jsrr _ _ _ | .rti _ | .res _ => false
  | .trap _ vec => vec == 0x20#8 || vec == 0x23#8

/-- The three stores, the only instructions that write memory (10_state.md section 7; 43_trap.md R110). -/
def storesMem : Instr → Bool
  | .st _ _ | .sti _ _ | .str _ _ _ => true
  | .addReg _ _ _ _ | .addImm _ _ _ | .andReg _ _ _ _ | .andImm _ _ _ | .notReg _ _ _ => false
  | .ld _ _ | .ldi _ _ | .ldr _ _ _ | .lea _ _ | .br _ _ | .jmp _ _ _ | .jsr _ | .jsrr _ _ _ => false
  | .trap _ _ | .rti _ | .res _ => false

/-- A trap vector with a routine (43_trap.md R101). -/
def validVector (vec : BitVec 8) : Bool := decide (0x20#8 ≤ vec) && decide (vec ≤ 0x25#8)

/-! ## The invariant -/

/-- A diagnostic record is of one of the two shapes of 60_exceptions.md R116 and R118. -/
def Diag.wellFormed (d : Diag) : Prop :=
  (d.anomaly = .invalidOpcode ∧ d.vector = none ∧ (opcode d.word = 0b1000#4 ∨ opcode d.word = 0b1101#4)) ∨
  (d.anomaly = .invalidTrapVector ∧ d.vector = some (lowByte d.word) ∧ opcode d.word = 0b1111#4 ∧
    validVector (lowByte d.word) = false)

/-- What holds of every state of a run. -/
structure State.Inv (s : State) : Prop where
  /-- Memory keeps its canonical form (log 9). -/
  mem : s.mem.wf = true
  /-- Exactly one of N, Z and P is set, and COND's bits 15:3 are 0 (10_state.md R22, R23). -/
  cond : s.cond = flagN ∨ s.cond = flagZ ∨ s.cond = flagP
  /-- KBSR holds 0x8000 or 0x0000 (R25). -/
  kbsr : s.kbsr = 0x8000#16 ∨ s.kbsr = 0x0000#16
  /-- KBDR's bits 15:8 are 0 (R26). -/
  kbdr : highByte s.kbdr = 0x00#8
  /-- Every diagnostic record is well formed. -/
  diag : ∀ d ∈ s.diag, d.wellFormed
  /-- A Halted CORE has no routine in progress (log 10). -/
  halted : s.run = .halted → s.routine = none
  /-- PUTS and PUTSP stand only before a poll of KBSR (log 11). -/
  stands : ∀ a, s.routine = some (.puts a) ∨ s.routine = some (.putsp a) → a = s.params.kbsrAddr
  /-- While a routine is in progress R7 holds the return address, which is PC (43_trap.md R100). -/
  link : s.routine ≠ none → s.reg 7 = s.pc
  /-- The two keyboard registers have different addresses (00_scope.md R6). -/
  params : s.params.kbsrAddr ≠ s.params.kbdrAddr

/-! ## Runs -/

/-- The state before the first step of a machine with the parameters `p` (70_reset_and_hazards.md R132, R133): reset, the
images loaded in order, PC set. -/
def boot (p : Params) (images : List (Word × List Word)) (startPc : Word) : State :=
  ((State.reset.configure p).loadImages images).hostSetPc startPc

/-- One move of the CORE, or of the host while the CORE is Running (R139). -/
inductive Moves : State → State → Prop where
  | core {s t : State} : step s = .next t → Moves s t
  | supply {s : State} (b : Byte) : s.run = .running → Moves s (s.supplyInput b)

/-- The states a run from a boot can reach, with every choice of the parameters and every schedule of the host's input. -/
inductive Reachable : State → Prop where
  | boot (p : Params) (images : List (Word × List Word)) (startPc : Word) :
      p.kbsrAddr ≠ p.kbdrAddr → Reachable (boot p images startPc)
  | move {s t : State} : Reachable s → Moves s t → Reachable t

/-- A safe run has recorded no anomaly: the premise 93_implementation_defined.md asks a claim to take where it matters. -/
def State.Quiet (s : State) : Prop := s.diag = []

/-- `n` steps of the CORE with no move of the host between them. -/
def runs (n : Nat) (s : State) : Result := Host.Core.run Sys2Proof.core n s

end Sys2Proof.Machine
end

