-- ==== Sys2Proof/Certificates/Slice0/Obligations.lean ====
section
/-! DEFINITION. The statements for the provers. -/

open Sys2Proof Sys2Proof.Machine

/-! ## Reset and the invariant -/

/-- 10_state.md R19, R22, R24-R26, R28, R30 and 70_reset_and_hazards.md R132: the values the spec gives for reset. PC
and the input queue are the model's choice (log 1, log 13), and nothing is said of them. -/
def Obligations.ResetHoldsTheSpecValues : Prop :=
  (∀ r : RegNum, State.reset.reg r = 0x0000#16) ∧ (∀ a : Word, State.reset.peek a = 0x0000#16) ∧
  State.reset.cond = 0x0002#16 ∧ State.reset.kbsr = 0x0000#16 ∧ State.reset.kbdr = 0x0000#16 ∧
  State.reset.run = .running ∧ State.reset.out = [] ∧ State.reset.diag = []

/-- The invariant holds right after reset. -/
def Obligations.ResetMeetsTheInvariant : Prop := State.reset.Inv

/-- Every step keeps the invariant: canonical memory, exactly one flag in COND (R23), the legal values of KBSR and KBDR
(R25, R26), well-formed diagnostics (R118), and where a routine may stand (log 10, log 11). -/
def Obligations.StepKeepsTheInvariant : Prop := ∀ s t : State, s.Inv → step s = .next t → t.Inv

/-- From every boot, with every choice of the parameters, every image and every schedule of the host's input, the invariant
holds throughout. -/
def Obligations.ReachableStatesMeetTheInvariant : Prop := ∀ s : State, Reachable s → s.Inv

/-! ## Decoding -/

/-- Decoding an encoded instruction gives it back, every operand at every value (30_encoding.md R59, R60). -/
def Obligations.DecodeInvertsEncode : Prop := ∀ i : Instr, i.wf = true → decode (encode i) = i

/-- Every word is the encoding of the instruction it decodes to: decoding drops no bit (R60, R65). -/
def Obligations.EncodeInvertsDecode : Prop := ∀ w : Word, encode (decode w) = w

/-- INDEX.md: "Exactly one row matches every 16-bit word", and it is the row of the decoded instruction (R65). -/
def Obligations.ExactlyOneTableRowCoversEachWord : Prop :=
  ∀ w : Word, opcodeTable.filter (fun r => rowCovers r w) = [rowOf (decode w)]

/-- Words of the spec's own examples (95_test_vectors.md), written bit by bit. -/
def Obligations.SampleWordsDecode : Prop :=
  decode 0b0001_000_001_0_00_010#16 = .addReg 0 1 0 2 ∧
  decode 0b0101_000_001_1_11111#16 = .andImm 0 1 0b11111#5 ∧
  decode 0b1001_101_100_111111#16 = .notReg 5 4 0b111111#6 ∧
  decode 0b0110_010_001_000000#16 = .ldr 2 1 0 ∧
  decode 0b1011_101_000000110#16 = .sti 5 6 ∧
  decode 0b0000_001_111111101#16 = .br 0b001#3 0b111111101#9 ∧
  decode 0b0100_1_00000000100#16 = .jsr 4 ∧
  decode 0b1111_0000_00100101#16 = .trap 0 0x25#8 ∧
  decode 0b1101_000000000000#16 = .res 0

/-- Every row of the opcode table reads its fields at the bits of R59 and R60. The numbers of the opcodes other than ADD
and RES, and the store source field, are the spec's choice (D2, D4; log 5). -/
def Obligations.DecodeReadsEveryField : Prop :=
  ∀ w : Word,
    (w &&& 0xF020#16 = 0x1000#16 →
      decode w = .addReg (w.extractLsb' 9 3) (w.extractLsb' 6 3) (w.extractLsb' 3 2) (w.extractLsb' 0 3)) ∧
    (w &&& 0xF020#16 = 0x1020#16 → decode w = .addImm (w.extractLsb' 9 3) (w.extractLsb' 6 3) (w.extractLsb' 0 5)) ∧
    (w &&& 0xF020#16 = 0x5000#16 →
      decode w = .andReg (w.extractLsb' 9 3) (w.extractLsb' 6 3) (w.extractLsb' 3 2) (w.extractLsb' 0 3)) ∧
    (w &&& 0xF020#16 = 0x5020#16 → decode w = .andImm (w.extractLsb' 9 3) (w.extractLsb' 6 3) (w.extractLsb' 0 5)) ∧
    (w &&& 0xF000#16 = 0x9000#16 → decode w = .notReg (w.extractLsb' 9 3) (w.extractLsb' 6 3) (w.extractLsb' 0 6)) ∧
    (w &&& 0xF000#16 = 0x2000#16 → decode w = .ld (w.extractLsb' 9 3) (w.extractLsb' 0 9)) ∧
    (w &&& 0xF000#16 = 0xA000#16 → decode w = .ldi (w.extractLsb' 9 3) (w.extractLsb' 0 9)) ∧
    (w &&& 0xF000#16 = 0x6000#16 → decode w = .ldr (w.extractLsb' 9 3) (w.extractLsb' 6 3) (w.extractLsb' 0 6)) ∧
    (w &&& 0xF000#16 = 0xE000#16 → decode w = .lea (w.extractLsb' 9 3) (w.extractLsb' 0 9)) ∧
    (w &&& 0xF000#16 = 0x3000#16 → decode w = .st (w.extractLsb' 9 3) (w.extractLsb' 0 9)) ∧
    (w &&& 0xF000#16 = 0xB000#16 → decode w = .sti (w.extractLsb' 9 3) (w.extractLsb' 0 9)) ∧
    (w &&& 0xF000#16 = 0x7000#16 → decode w = .str (w.extractLsb' 9 3) (w.extractLsb' 6 3) (w.extractLsb' 0 6)) ∧
    (w &&& 0xF000#16 = 0x0000#16 → decode w = .br (w.extractLsb' 9 3) (w.extractLsb' 0 9)) ∧
    (w &&& 0xF000#16 = 0xC000#16 → decode w = .jmp (w.extractLsb' 9 3) (w.extractLsb' 6 3) (w.extractLsb' 0 6)) ∧
    (w &&& 0xF800#16 = 0x4800#16 → decode w = .jsr (w.extractLsb' 0 11)) ∧
    (w &&& 0xF800#16 = 0x4000#16 → decode w = .jsrr (w.extractLsb' 9 2) (w.extractLsb' 6 3) (w.extractLsb' 0 6)) ∧
    (w &&& 0xF000#16 = 0xF000#16 → decode w = .trap (w.extractLsb' 8 4) (w.extractLsb' 0 8)) ∧
    (w &&& 0xF000#16 = 0x8000#16 → decode w = .rti (w.extractLsb' 0 12)) ∧
    (w &&& 0xF000#16 = 0xD000#16 → decode w = .res (w.extractLsb' 0 12))

/-- R61: words that differ only in the ignored bits execute the same; of RTI and RES, and of an invalid TRAP, the diagnostic
record, which holds the word, is all that may differ (60_exceptions.md R118). -/
def Obligations.IgnoredBitsChangeNothing : Prop :=
  ∀ (s : State) (w w' : Word),
    ((opcode w = 0b0001#4 ∨ opcode w = 0b0101#4) → w.getLsbD 5 = false → w &&& 0xFFE7#16 = w' &&& 0xFFE7#16 →
      exec (decode w) s = exec (decode w') s) ∧
    (opcode w = 0b1001#4 → w &&& 0xFFC0#16 = w' &&& 0xFFC0#16 → exec (decode w) s = exec (decode w') s) ∧
    (opcode w = 0b1100#4 → w &&& 0xF1C0#16 = w' &&& 0xF1C0#16 → exec (decode w) s = exec (decode w') s) ∧
    (opcode w = 0b0100#4 → w.getLsbD 11 = false → w &&& 0xF9C0#16 = w' &&& 0xF9C0#16 →
      exec (decode w) s = exec (decode w') s) ∧
    (opcode w = 0b1111#4 → validVector (w.extractLsb' 0 8) = true → w &&& 0xF0FF#16 = w' &&& 0xF0FF#16 →
      exec (decode w) s = exec (decode w') s) ∧
    (((opcode w = 0b1000#4 ∨ opcode w = 0b1101#4) ∧ opcode w' = opcode w) ∨
      (opcode w = 0b1111#4 ∧ validVector (w.extractLsb' 0 8) = false ∧ w &&& 0xF0FF#16 = w' &&& 0xF0FF#16) →
      ∃ t t', exec (decode w) s = .next t ∧ exec (decode w') s = .next t' ∧ { t with diag := [] } = { t' with diag := [] })

/-! ## The step -/

/-- 70_reset_and_hazards.md R135: fetch through the memory port, increment PC, decode, execute. -/
def Obligations.StepRunsTheDecodedInstruction : Prop :=
  ∀ (s : State) (i : Instr), Idle s → decode (s.memRead s.pc).1 = i →
    step s = exec i { (s.memRead s.pc).2 with pc := s.pc + 1 }

/-- R137: a Halted CORE has no step, and Halted is the only state from which neither the CORE nor the host has a move. -/
def Obligations.HaltedAloneIsFinal : Prop :=
  ∀ s : State, (step s = .fault .halted ↔ s.run = .halted) ∧ ((∀ t, ¬ Moves s t) ↔ s.run = .halted)

/-- R137, R138 and R145: a Running CORE always has a next state, except while a GETC or IN is held with no input, and then
one byte from the host gives it one. -/
def Obligations.RunningCoreGoesOnUnlessHeld : Prop :=
  ∀ s : State, s.run = .running →
    (step s = .fault .awaitingInput ∧ (s.routine = some .getc ∨ s.routine = some .inChar) ∧ s.inq = [] ∧
      ∀ b : Byte, ∃ t, step (s.supplyInput b) = .next t ∧ t.routine = none) ∨
    (¬((s.routine = some .getc ∨ s.routine = some .inChar) ∧ s.inq = []) ∧ ∃ t, step s = .next t)

/-- R136: what a fetch at a keyboard register executes. That the fetch goes through the intercept, and that its read takes
the key, are the spec's choices (D6, D8; log 6). -/
def Obligations.FetchAtTheKeyboardRegisters : Prop :=
  ∀ s : State, Idle s →
    (s.pc = s.params.kbsrAddr → s.inq = [] →
      step s = .next { s with kbsr := 0x0000#16, pc := s.params.kbsrAddr + 1 }) ∧
    (∀ c rest, s.pc = s.params.kbsrAddr → s.inq = c :: rest →
      step s = .next { s with kbsr := 0x8000#16, kbdr := c.setWidth 16, inq := rest, pc := s.params.kbsrAddr + 1,
                              diag := s.diag ++ [⟨.invalidOpcode, s.params.kbsrAddr, 0x8000#16, none⟩] }) ∧
    (s.pc = s.params.kbdrAddr → s.params.kbsrAddr ≠ s.params.kbdrAddr →
      step s = exec (decode s.kbdr) { s with pc := s.params.kbdrAddr + 1 } ∧
      (highByte s.kbdr = 0x00#8 → step s = .next { s with pc := s.params.kbdrAddr + 1 }))

/-- 00_scope.md R9 and 60_exceptions.md R118: output and diagnostics are append-only; R8: input is taken from the head
only. R31: no step changes the parameters (log 17). -/
def Obligations.StreamsOnlyGrow : Prop :=
  ∀ s t : State, step s = .next t → s.out <+: t.out ∧ s.diag <+: t.diag ∧ t.inq <:+ s.inq ∧ t.params = s.params

/-- 10_state.md R24: reset is Running, only the HALT routine sets Halted, nothing leaves Halted. -/
def Obligations.OnlyHaltHalts : Prop :=
  State.reset.run = .running ∧
  (∀ s t : State, step s = .next t → t.run = .halted →
    s.run = .running ∧ s.routine = none ∧ ∃ ign, decode s.fetch.1 = .trap ign 0x25#8) ∧
  (∀ s : State, s.run = .halted → ∀ t, step s ≠ .next t)

/-! ## Extension and effective addresses -/

/-- 00_scope.md R12. -/
def Obligations.ExtensionsFollowR12 : Prop :=
  ∀ (n : Nat) (f : BitVec n), 1 ≤ n → n ≤ 16 →
    (∀ k, k < 16 → (sext f).getLsbD k = f.getLsbD (if k < n then k else n - 1)) ∧
    (f.getLsbD (n - 1) = false → (sext f).toNat = f.toNat) ∧
    (f.getLsbD (n - 1) = true → (sext f).toNat = f.toNat + 65536 - 2 ^ n) ∧
    (∀ k, k < 16 → (zext f).getLsbD k = (decide (k < n) && f.getLsbD k))

/-- 20_memory.md R50 for the sums of 30_encoding.md R63: PC plus a signed offset and base plus a signed offset wrap
modulo 2^16. -/
def Obligations.EffectiveAddressesWrap : Prop :=
  ∀ s : State,
    (∀ off : BitVec 9, ((s.pcRel off).toNat : Int) = ((s.pc.toNat : Int) + off.toInt) % 65536) ∧
    (∀ off : BitVec 11, ((s.pcRel off).toNat : Int) = ((s.pc.toNat : Int) + off.toInt) % 65536) ∧
    (∀ (base : RegNum) (off : BitVec 6),
      ((s.baseOff base off).toNat : Int) = (((s.reg base).toNat : Int) + off.toInt) % 65536)

/-! ## ALU -/

/-- 40_alu.md R79, its encoding included (ADD's opcode is the source's own). -/
def Obligations.AddRegisterFollowsR79 : Prop :=
  (∀ w : Word, w &&& 0xF020#16 = 0x1000#16 →
    decode w = .addReg (w.extractLsb' 9 3) (w.extractLsb' 6 3) (w.extractLsb' 3 2) (w.extractLsb' 0 3)) ∧
  (∀ (s : State) (dr sr1 : RegNum) (ign : BitVec 2) (sr2 : RegNum),
    ∃ t, exec (.addReg dr sr1 ign sr2) s = .next t ∧
      (t.reg dr).toNat = ((s.reg sr1).toNat + (s.reg sr2).toNat) % 65536 ∧
      (t.reg dr).toInt = ((s.reg sr1).toInt + (s.reg sr2).toInt).bmod 65536 ∧
      FlagsMatch t (t.reg dr) ∧ t.pc = s.pc ∧ KeepsRest [dr] s t)

/-- 40_alu.md R80, its encoding included. -/
def Obligations.AddImmediateFollowsR80 : Prop :=
  (∀ w : Word, w &&& 0xF020#16 = 0x1020#16 →
    decode w = .addImm (w.extractLsb' 9 3) (w.extractLsb' 6 3) (w.extractLsb' 0 5)) ∧
  (∀ (s : State) (dr sr1 : RegNum) (imm5 : BitVec 5),
    ∃ t, exec (.addImm dr sr1 imm5) s = .next t ∧
      (t.reg dr).toInt = ((s.reg sr1).toInt + imm5.toInt).bmod 65536 ∧
      FlagsMatch t (t.reg dr) ∧ t.pc = s.pc ∧ KeepsRest [dr] s t)

/-- The effect and frame of R81. -/
def Obligations.AndRegisterResultAndFrame : Prop :=
  ∀ (s : State) (dr sr1 : RegNum) (ign : BitVec 2) (sr2 : RegNum),
    ∃ t, exec (.andReg dr sr1 ign sr2) s = .next t ∧
      (∀ k, (t.reg dr).getLsbD k = ((s.reg sr1).getLsbD k && (s.reg sr2).getLsbD k)) ∧
      FlagsMatch t (t.reg dr) ∧ t.pc = s.pc ∧ KeepsRest [dr] s t

/-- The effect and frame of R82: bits 15:4 of SR1 meet the sign of imm5. -/
def Obligations.AndImmediateResultAndFrame : Prop :=
  ∀ (s : State) (dr sr1 : RegNum) (imm5 : BitVec 5),
    ∃ t, exec (.andImm dr sr1 imm5) s = .next t ∧
      (∀ k, (t.reg dr).getLsbD k = ((s.reg sr1).getLsbD k && imm5.getLsbD (min k 4))) ∧
      FlagsMatch t (t.reg dr) ∧ t.pc = s.pc ∧ KeepsRest [dr] s t

/-- The effect and frame of R83. -/
def Obligations.NotResultAndFrame : Prop :=
  ∀ (s : State) (dr sr : RegNum) (ign : BitVec 6),
    ∃ t, exec (.notReg dr sr ign) s = .next t ∧
      (t.reg dr).toNat = 65535 - (s.reg sr).toNat ∧
      FlagsMatch t (t.reg dr) ∧ t.pc = s.pc ∧ KeepsRest [dr] s t

/-! ## Loads -/

/-- R85: the word and the side effect are those of MemRead at the effective address. -/
def Obligations.LdResultAndFrame : Prop :=
  ∀ (s : State) (dr : RegNum) (off : BitVec 9),
    ∃ t, exec (.ld dr off) s = .next t ∧
      t.reg dr = (s.memRead (s.pcRel off)).1 ∧ FlagsMatch t (t.reg dr) ∧ t.pc = s.pc ∧
      KeepsRegs [dr] s t ∧ KeepsMem s t ∧ KeepsKeyboard (s.memRead (s.pcRel off)).2 t ∧ KeepsRun s t ∧ KeepsStreams s t

/-- R86: the pointer read comes first, and the value read sees the state it leaves. -/
def Obligations.LdiResultAndFrame : Prop :=
  ∀ (s : State) (dr : RegNum) (off : BitVec 9),
    ∃ t, exec (.ldi dr off) s = .next t ∧
      t.reg dr = ((s.memRead (s.pcRel off)).2.memRead (s.memRead (s.pcRel off)).1).1 ∧
      FlagsMatch t (t.reg dr) ∧ t.pc = s.pc ∧ KeepsRegs [dr] s t ∧ KeepsMem s t ∧
      KeepsKeyboard ((s.memRead (s.pcRel off)).2.memRead (s.memRead (s.pcRel off)).1).2 t ∧
      KeepsRun s t ∧ KeepsStreams s t

/-- R87: the base is read before the destination is written. -/
def Obligations.LdrResultAndFrame : Prop :=
  ∀ (s : State) (dr base : RegNum) (off : BitVec 6),
    ∃ t, exec (.ldr dr base off) s = .next t ∧
      t.reg dr = (s.memRead (s.baseOff base off)).1 ∧ FlagsMatch t (t.reg dr) ∧ t.pc = s.pc ∧
      KeepsRegs [dr] s t ∧ KeepsMem s t ∧ KeepsKeyboard (s.memRead (s.baseOff base off)).2 t ∧
      KeepsRun s t ∧ KeepsStreams s t

/-- R88: an address, not a read; the flags are set (90_conflicts.md C5). -/
def Obligations.LeaResultAndFrame : Prop :=
  ∀ (s : State) (dr : RegNum) (off : BitVec 9),
    ∃ t, exec (.lea dr off) s = .next t ∧
      ((t.reg dr).toNat : Int) = ((s.pc.toNat : Int) + off.toInt) % 65536 ∧
      FlagsMatch t (t.reg dr) ∧ t.pc = s.pc ∧ KeepsRest [dr] s t

/-- 20_memory.md R41 and R48 through LD, LDR and LDI: a load from KBSR_ADDR polls, and takes a waiting key into KBDR.
When the key is consumed is the spec's choice (D6; log 6). -/
def Obligations.LoadFromKbsrPolls : Prop :=
  ∀ (s : State) (i : Instr) (dr : RegNum),
    ((∃ off, i = .ld dr off ∧ s.pcRel off = s.params.kbsrAddr) ∨
     (∃ base off, i = .ldr dr base off ∧ s.baseOff base off = s.params.kbsrAddr) ∨
     (∃ off, i = .ldi dr off ∧ Plain s (s.pcRel off) ∧ s.peek (s.pcRel off) = s.params.kbsrAddr)) →
    (s.inq = [] → ∃ t, exec i s = .next t ∧ t.reg dr = 0x0000#16 ∧ t.cond = 0x0002#16 ∧ t.kbsr = 0x0000#16 ∧
      t.kbdr = s.kbdr ∧ t.inq = []) ∧
    (∀ c rest, s.inq = c :: rest → ∃ t, exec i s = .next t ∧ t.reg dr = 0x8000#16 ∧ t.cond = 0x0004#16 ∧
      t.kbsr = 0x8000#16 ∧ t.kbdr.toNat = c.toNat ∧ t.inq = rest)

/-- R40 and R48 through LD, LDR and LDI: a load from any other address has no side effect, KBDR_ADDR gives the held word
and plain storage the array's word. That a load from KBDR_ADDR gives the held word and takes no key is the spec's choice
(D6; log 6). -/
def Obligations.LoadElsewhereHasNoSideEffect : Prop :=
  ∀ (s : State) (i : Instr) (dr : RegNum) (ea : Word),
    ((∃ off, i = .ld dr off ∧ s.pcRel off = ea) ∨ (∃ base off, i = .ldr dr base off ∧ s.baseOff base off = ea) ∨
     (∃ off, i = .ldi dr off ∧ Plain s (s.pcRel off) ∧ s.peek (s.pcRel off) = ea)) →
    ea ≠ s.params.kbsrAddr →
    ∃ t, exec i s = .next t ∧ t.reg dr = (if ea = s.params.kbdrAddr then s.kbdr else s.peek ea) ∧ KeepsRest [dr] s t

/-! ## Stores -/

/-- R89, with 20_memory.md R43 and R44. -/
def Obligations.StResultAndFrame : Prop :=
  ∀ (s : State) (sr : RegNum) (off : BitVec 9),
    ∃ t, exec (.st sr off) s = .next t ∧
      (Plain s (s.pcRel off) → t.peek (s.pcRel off) = s.reg sr) ∧
      (¬ Plain s (s.pcRel off) → t.peek (s.pcRel off) = s.peek (s.pcRel off)) ∧
      KeepsMemBut (s.pcRel off) s t ∧ KeepsRegs [] s t ∧ t.cond = s.cond ∧ t.pc = s.pc ∧
      KeepsKeyboard s t ∧ KeepsRun s t ∧ KeepsStreams s t

/-- R90: the pointer read may poll; the store goes where the pointer says. -/
def Obligations.StiResultAndFrame : Prop :=
  ∀ (s : State) (sr : RegNum) (off : BitVec 9),
    ∃ t, exec (.sti sr off) s = .next t ∧
      (Plain s (s.indirect off).1 → t.peek (s.indirect off).1 = s.reg sr) ∧
      (¬ Plain s (s.indirect off).1 → t.peek (s.indirect off).1 = s.peek (s.indirect off).1) ∧
      KeepsMemBut (s.indirect off).1 s t ∧ KeepsRegs [] s t ∧ t.cond = s.cond ∧ t.pc = s.pc ∧
      KeepsKeyboard (s.indirect off).2 t ∧ KeepsRun s t ∧ KeepsStreams s t

/-- R91. -/
def Obligations.StrResultAndFrame : Prop :=
  ∀ (s : State) (sr base : RegNum) (off : BitVec 6),
    ∃ t, exec (.str sr base off) s = .next t ∧
      (Plain s (s.baseOff base off) → t.peek (s.baseOff base off) = s.reg sr) ∧
      (¬ Plain s (s.baseOff base off) → t.peek (s.baseOff base off) = s.peek (s.baseOff base off)) ∧
      KeepsMemBut (s.baseOff base off) s t ∧ KeepsRegs [] s t ∧ t.cond = s.cond ∧ t.pc = s.pc ∧
      KeepsKeyboard s t ∧ KeepsRun s t ∧ KeepsStreams s t

/-! ## Laws of the load and store family -/

/-- 41_load_store.md R92: LEA then LDR with offset 0 reads what LD reads, away from KBSR_ADDR. -/
def Obligations.LeaThenLdrReadsWhatLdReads : Prop :=
  ∀ (s : State) (d e : RegNum) (off : BitVec 9), s.pcRel off ≠ s.params.kbsrAddr →
    ∃ t u v, exec (.lea d off) s = .next t ∧ exec (.ldr e d 0) { t with pc := t.pc + 1 } = .next u ∧
      exec (.ld e off) s = .next v ∧ u.reg e = v.reg e ∧ u.cond = v.cond

/-- R93: two steps, an STR and the LDR after it, with the two conditions of the rule. -/
def Obligations.StoreThenLoadReturnsTheValue : Prop :=
  ∀ (s : State) (sr base dr : RegNum) (off : BitVec 6), Idle s → Plain s s.pc → Plain s (s.pc + 1) →
    decode (s.peek s.pc) = .str sr base off → decode (s.peek (s.pc + 1)) = .ldr dr base off →
    Plain s (s.baseOff base off) → s.baseOff base off ≠ s.pc + 1 →
    ∃ t, runs 2 s = .next t ∧ t.reg dr = s.reg sr ∧ FlagsMatch t (s.reg sr) ∧ t.pc = s.pc + 2 ∧
      t.peek (s.baseOff base off) = s.reg sr ∧ KeepsMemBut (s.baseOff base off) s t

/-- 20_memory.md R55: an ST, STI or STR whose address is the very next instruction's, computed as the instruction computes
it (PC being past the store), and the next step, which runs the stored word. -/
def Obligations.FetchSeesTheStoreBeforeIt : Prop :=
  ∀ (s : State) (i : Instr) (sr : RegNum), Idle s → Plain s s.pc → Plain s (s.pc + 1) → decode (s.peek s.pc) = i →
    ((∃ off, i = .st sr off ∧ ({ s with pc := s.pc + 1 } : State).pcRel off = s.pc + 1) ∨
     (∃ base off, i = .str sr base off ∧ ({ s with pc := s.pc + 1 } : State).baseOff base off = s.pc + 1) ∨
     (∃ off, i = .sti sr off ∧ (({ s with pc := s.pc + 1 } : State).indirect off).1 = s.pc + 1)) →
    ∃ t, step s = .next t ∧ t.pc = s.pc + 1 ∧ t.peek (s.pc + 1) = s.reg sr ∧ KeepsMemBut (s.pc + 1) s t ∧
      step t = exec (decode (s.reg sr)) { t with pc := s.pc + 2 }

/-! ## Control transfer -/

/-- 42_control.md R94: n, z and p test the flag of the same name (the positions are the spec's choice, D3; log 5). -/
def Obligations.BrTakenWhenAMaskedFlagIsSet : Prop :=
  ∀ (s : State) (nzp : BitVec 3) (off : BitVec 9),
    ∃ t, exec (.br nzp off) s = .next t ∧
      (((nzp.getLsbD 2 && s.cond.getLsbD 2) || (nzp.getLsbD 1 && s.cond.getLsbD 1) ||
        (nzp.getLsbD 0 && s.cond.getLsbD 0)) = true → t.pc = s.pcRel off) ∧
      (((nzp.getLsbD 2 && s.cond.getLsbD 2) || (nzp.getLsbD 1 && s.cond.getLsbD 1) ||
        (nzp.getLsbD 0 && s.cond.getLsbD 0)) = false → t.pc = s.pc) ∧
      t.cond = s.cond ∧ KeepsRest [] s t

/-- R95: mask 000 never branches; mask 111 always does, COND having one flag set. -/
def Obligations.BrMaskEdges : Prop :=
  (∀ (s : State) (off : BitVec 9), exec (.br 0b000#3 off) s = .next s) ∧
  (∀ (s : State) (off : BitVec 9), s.Inv → exec (.br 0b111#3 off) s = .next { s with pc := s.pcRel off })

/-- R96. -/
def Obligations.JmpResultAndFrame : Prop :=
  ∀ (s : State) (ignHi : BitVec 3) (base : RegNum) (ignLo : BitVec 6),
    ∃ t, exec (.jmp ignHi base ignLo) s = .next t ∧ t.pc = s.reg base ∧ t.cond = s.cond ∧ KeepsRest [] s t

/-- R97. -/
def Obligations.JsrResultAndFrame : Prop :=
  ∀ (s : State) (off : BitVec 11),
    ∃ t, exec (.jsr off) s = .next t ∧ t.reg 7 = s.pc ∧
      ((t.pc.toNat : Int) = ((s.pc.toNat : Int) + off.toInt) % 65536) ∧ t.cond = s.cond ∧ KeepsRest [7] s t

/-- R98 in both orders of the parameter JSRR_BASE_BEFORE_LINK: JSRR R7 goes to the old R7 where it is true, and on at the
next instruction where it is false, the value the spec takes (D9; log 4). -/
def Obligations.JsrrResultAndFrame : Prop :=
  State.reset.params.jsrrBaseBeforeLink = false ∧
  ∀ (s : State) (ignHi : BitVec 2) (base : RegNum) (ignLo : BitVec 6),
    ∃ t, exec (.jsrr ignHi base ignLo) s = .next t ∧ t.reg 7 = s.pc ∧
      (s.params.jsrrBaseBeforeLink = true → t.pc = s.reg base) ∧
      (s.params.jsrrBaseBeforeLink = false → t.pc = (if base = 7 then s.pc else s.reg base)) ∧
      t.cond = s.cond ∧ KeepsRest [7] s t

/-- 10_state.md R20: JSR, JSRR and TRAP, an invalid vector included, write the post-increment PC into R7; JMP R7
returns to it; R7 is written and read as any other register. That every TRAP answers a next state is the model's choice where
a GETC or IN is held or a PUTS or PUTSP stands (log 10, log 11): that state is the next state, and R7 is written in it. -/
def Obligations.R7IsTheLinkRegister : Prop :=
  (∀ (s : State) (i : Instr),
    ((∃ off, i = .jsr off) ∨ (∃ a b c, i = .jsrr a b c) ∨ (∃ ign vec, i = .trap ign vec)) →
    ∃ t, exec i s = .next t ∧ t.reg 7 = s.pc) ∧
  (∀ (s : State) (a : BitVec 3) (c : BitVec 6), ∃ t, exec (.jmp a 7 c) s = .next t ∧ t.pc = s.reg 7) ∧
  (∀ (s : State) (v : Word), (s.setReg 7 v).reg 7 = v ∧ ∀ r : RegNum, r ≠ 7 → (s.setReg 7 v).reg r = s.reg r)

/-! ## TRAP -/

/-- 43_trap.md R102: with a key waiting GETC takes it into R0, with no echo and the flags set (D10); with none the
instruction is held (R109; the held state is the model's, log 10). -/
def Obligations.GetcReadsOrIsHeld : Prop :=
  ∀ (s : State) (ign : BitVec 4),
    (∀ c rest, s.inq = c :: rest → s.routine = none →
      ∃ t, exec (.trap ign 0x20#8) s = .next t ∧ (t.reg 0).toNat = c.toNat ∧ t.reg 7 = s.pc ∧
        t.cond = (if c = 0x00#8 then 0x0002#16 else 0x0001#16) ∧ t.inq = rest ∧ t.pc = s.pc ∧ KeepsRegs [0, 7] s t ∧
        KeepsMem s t ∧ t.kbsr = s.kbsr ∧ t.kbdr = s.kbdr ∧ KeepsRun s t ∧ KeepsStreams s t) ∧
    (s.inq = [] →
      ∃ t, exec (.trap ign 0x20#8) s = .next t ∧ t.routine = some .getc ∧ t.run = s.run ∧ t.reg 7 = s.pc ∧
        t.cond = s.cond ∧ t.pc = s.pc ∧ KeepsRegs [7] s t ∧ KeepsMem s t ∧ KeepsKeyboard s t ∧ KeepsStreams s t)

/-- R103. -/
def Obligations.OutEmitsTheLowByte : Prop :=
  ∀ (s : State) (ign : BitVec 4),
    ∃ t, exec (.trap ign 0x21#8) s = .next t ∧ t.out = s.out ++ [(s.reg 0).extractLsb' 0 8] ∧ t.diag = s.diag ∧
      t.reg 7 = s.pc ∧ t.cond = s.cond ∧ t.pc = s.pc ∧ KeepsRegs [7] s t ∧ KeepsMem s t ∧ KeepsKeyboard s t ∧
      KeepsRun s t

/-- R105, for every prompt: the prompt is out before the read, so also while IN is held; then the key is echoed and taken
into R0, with the flags set (D10, D12). -/
def Obligations.InPromptsReadsAndEchoes : Prop :=
  ∀ (s : State) (ign : BitVec 4),
    (∀ c rest, s.inq = c :: rest → s.routine = none →
      ∃ t, exec (.trap ign 0x23#8) s = .next t ∧ (t.reg 0).toNat = c.toNat ∧ t.reg 7 = s.pc ∧
        t.cond = (if c = 0x00#8 then 0x0002#16 else 0x0001#16) ∧ t.inq = rest ∧
        t.out = s.out ++ Config.inPrompt ++ [c] ∧ t.diag = s.diag ∧ t.pc = s.pc ∧ KeepsRegs [0, 7] s t ∧
        KeepsMem s t ∧ t.kbsr = s.kbsr ∧ t.kbdr = s.kbdr ∧ KeepsRun s t) ∧
    (s.inq = [] →
      ∃ t, exec (.trap ign 0x23#8) s = .next t ∧ t.routine = some .inChar ∧ t.run = s.run ∧ t.reg 7 = s.pc ∧
        t.out = s.out ++ Config.inPrompt ∧ t.diag = s.diag ∧ t.cond = s.cond ∧ t.pc = s.pc ∧ KeepsRegs [7] s t ∧
        KeepsMem s t ∧ KeepsKeyboard s t)

/-- R102, R105 and R109 in a held state: no step while there is no input, and then the rest of the routine. -/
def Obligations.HeldReadEndsWithTheNextKey : Prop :=
  ∀ (s : State) (r : Routine), s.run = .running → s.routine = some r → (r = .getc ∨ r = .inChar) →
    (s.inq = [] → step s = .fault .awaitingInput) ∧
    (∀ c rest, s.inq = c :: rest →
      ∃ t, step s = .next t ∧ (t.reg 0).toNat = c.toNat ∧ t.cond = (if c = 0x00#8 then 0x0002#16 else 0x0001#16) ∧
        t.inq = rest ∧ t.out = s.out ++ (if r = .inChar then [c] else []) ∧ t.diag = s.diag ∧ t.routine = none ∧
        t.run = s.run ∧ t.pc = s.pc ∧ KeepsRegs [0] s t ∧ KeepsMem s t ∧ t.kbsr = s.kbsr ∧ t.kbdr = s.kbdr)

/-- R104: PUTS of the words `ws` with the zero word after them, none of them at KBSR_ADDR, emits their low bytes in one
step and changes nothing else but R7. Addresses wrap. -/
def Obligations.PutsPrintsUpToTheZeroWord : Prop :=
  ∀ (s : State) (ign : BitVec 4) (ws : List Word), s.routine = none →
    WordsAt s (s.reg 0) (ws ++ [0x0000#16]) → (∀ v ∈ ws, v ≠ 0x0000#16) →
    ∃ t, exec (.trap ign 0x22#8) s = .next t ∧ t.out = s.out ++ ws.map (fun v => v.extractLsb' 0 8) ∧
      t.diag = s.diag ∧ t.reg 7 = s.pc ∧ t.cond = s.cond ∧ t.pc = s.pc ∧ KeepsRegs [7] s t ∧ KeepsMem s t ∧
      KeepsKeyboard s t ∧ KeepsRun s t

/-- R106: PUTSP of the words `ws` of two non-zero bytes each and a last word with a zero byte, none of them at
KBSR_ADDR: low byte first, then high byte, up to the zero byte (D13). -/
def Obligations.PutspPrintsUpToTheZeroByte : Prop :=
  ∀ (s : State) (ign : BitVec 4) (ws : List Word) (last : Word), s.routine = none →
    WordsAt s (s.reg 0) (ws ++ [last]) → (∀ v ∈ ws, lowByte v ≠ 0x00#8 ∧ highByte v ≠ 0x00#8) →
    (lowByte last = 0x00#8 ∨ highByte last = 0x00#8) →
    ∃ t, exec (.trap ign 0x24#8) s = .next t ∧
      t.out = s.out ++ ws.flatMap (fun v => [v.extractLsb' 0 8, v.extractLsb' 8 8]) ++
        (if lowByte last = 0x00#8 then [] else [lowByte last]) ∧
      t.diag = s.diag ∧ t.reg 7 = s.pc ∧ t.cond = s.cond ∧ t.pc = s.pc ∧ KeepsRegs [7] s t ∧ KeepsMem s t ∧
      KeepsKeyboard s t ∧ KeepsRun s t

/-- R104, R106 and R109 for strings that come to KBSR_ADDR after one word or more: in the step of the TRAP the routine
prints the words before it, and stands before the poll with nothing else changed but R7. That strings poll at all (D8; log 6)
and where PUTSP stops (D13; log 7) are the spec's choices, where a step ends is the model's (log 11). -/
def Obligations.StringsStandBeforeKbsr : Prop :=
  ∀ (s : State) (ign : BitVec 4) (ws : List Word), ws ≠ [] → WordsAt s (s.reg 0) ws →
    s.reg 0 + BitVec.ofNat 16 ws.length = s.params.kbsrAddr →
    ((∀ v ∈ ws, v ≠ 0x0000#16) →
      exec (.trap ign 0x22#8) s = .next { s.setReg 7 s.pc with
        out := s.out ++ ws.map (fun v => v.extractLsb' 0 8), routine := some (.puts s.params.kbsrAddr) }) ∧
    ((∀ v ∈ ws, lowByte v ≠ 0x00#8 ∧ highByte v ≠ 0x00#8) →
      exec (.trap ign 0x24#8) s = .next { s.setReg 7 s.pc with
        out := s.out ++ ws.flatMap (fun v => [v.extractLsb' 0 8, v.extractLsb' 8 8]),
        routine := some (.putsp s.params.kbsrAddr) })

/-- R104, R106 and R109 where the next word of a string is at KBSR_ADDR: in a TRAP with R0 = KBSR_ADDR, the poll being in its
own step, and in a routine that stands before the poll (log 11). PUTS ends where the poll finds no key; where it takes one it
emits the low byte 0x00 of 0x8000, prints the words `ws` after KBSR_ADDR as they read then, and ends at the zero word or
stands before KBSR_ADDR once more. PUTSP takes a key if there is one, emits nothing and ends. Each is said whole, so R0 and
all else is kept. That strings poll, when a key is taken (D6, D8; log 6) and that PUTSP stops at the zero low byte of 0x8000
(D13; log 7) are the spec's choices. -/
def Obligations.StringsPollKbsr : Prop :=
  ∀ s b : State,
    (∀ (ign : BitVec 4) (r : Result),
      (b = s.setReg 7 s.pc ∧ s.reg 0 = s.params.kbsrAddr ∧ r = exec (.trap ign 0x22#8) s) ∨
      (b = s ∧ s.run = .running ∧ s.routine = some (.puts s.params.kbsrAddr) ∧ r = step s) →
      (s.inq = [] → r = .next { b with kbsr := 0x0000#16, routine := none }) ∧
      (∀ (c : Byte) (rest : List Byte) (u : State) (ws : List Word), s.inq = c :: rest →
        u = { b with kbsr := 0x8000#16, kbdr := c.setWidth 16, inq := rest } → (∀ v ∈ ws, v ≠ 0x0000#16) →
        (WordsAt u (s.params.kbsrAddr + 1) (ws ++ [0x0000#16]) →
          r = .next { u with out := s.out ++ [0x00#8] ++ ws.map (fun v => v.extractLsb' 0 8), routine := none }) ∧
        (WordsAt u (s.params.kbsrAddr + 1) ws → ws.length = 65535 →
          r = .next { u with out := s.out ++ [0x00#8] ++ ws.map (fun v => v.extractLsb' 0 8),
                             routine := some (.puts s.params.kbsrAddr) }))) ∧
    (∀ (ign : BitVec 4) (r : Result),
      (b = s.setReg 7 s.pc ∧ s.reg 0 = s.params.kbsrAddr ∧ r = exec (.trap ign 0x24#8) s) ∨
      (b = s ∧ s.run = .running ∧ s.routine = some (.putsp s.params.kbsrAddr) ∧ r = step s) →
      (s.inq = [] → r = .next { b with kbsr := 0x0000#16, routine := none }) ∧
      (∀ (c : Byte) (rest : List Byte), s.inq = c :: rest →
        r = .next { b with kbsr := 0x8000#16, kbdr := c.setWidth 16, inq := rest, routine := none }))

/-- R107: HALT stops the run and emits nothing of its own (D19). -/
def Obligations.HaltStopsTheRun : Prop :=
  ∀ (s : State) (ign : BitVec 4),
    ∃ t, exec (.trap ign 0x25#8) s = .next t ∧ t.run = .halted ∧ step t = .fault .halted ∧ t.reg 7 = s.pc ∧
      t.pc = s.pc ∧ t.cond = s.cond ∧ t.routine = s.routine ∧ KeepsRegs [7] s t ∧ KeepsMem s t ∧ KeepsKeyboard s t ∧
      KeepsStreams s t

/-- R108, with the record of 60_exceptions.md R118 (its format is the spec's choice, D17, D18, D27; log 8). -/
def Obligations.InvalidVectorIsRecorded : Prop :=
  ∀ (s : State) (ign : BitVec 4) (vec : BitVec 8), (vec.toNat < 0x20 ∨ 0x25 < vec.toNat) →
    ∃ t, exec (.trap ign vec) s = .next t ∧
      t.diag = s.diag ++ [⟨.invalidTrapVector, s.pc - 1, encode (.trap ign vec), some vec⟩] ∧ t.out = s.out ∧
      t.reg 7 = s.pc ∧ t.pc = s.pc ∧ t.cond = s.cond ∧ KeepsRegs [7] s t ∧ KeepsMem s t ∧ KeepsKeyboard s t ∧
      KeepsRun s t

/-- R110: across any TRAP, R1-R6 and memory are unchanged, R7 is overwritten and R0 is kept by all but GETC and IN; and so
across every further part of a routine in progress, which leaves R7 alone. That every TRAP answers a next state is the model's
choice where a GETC or IN is held or a PUTS or PUTSP stands (log 10, log 11): that state is the next state, and the routine
has not finished there. -/
def Obligations.TrapsKeepR1ToR6AndMemory : Prop :=
  (∀ (s : State) (ign : BitVec 4) (vec : BitVec 8),
    ∃ t, exec (.trap ign vec) s = .next t ∧ KeepsRegs (if vec = 0x20#8 ∨ vec = 0x23#8 then [0, 7] else [7]) s t ∧
      KeepsMem s t ∧ t.reg 7 = s.pc) ∧
  (∀ s t : State, s.routine ≠ none → step s = .next t →
    KeepsRegs (if s.routine = some .getc ∨ s.routine = some .inChar then [0] else []) s t ∧ KeepsMem s t ∧
    t.pc = s.pc ∧ t.diag = s.diag ∧ t.run = s.run)

/-- 60_exceptions.md R122: no TRAP moves PC, so when its routine has finished the next step fetches at the word after
it, also where the routine took several steps; HALT leaves no step; R7 holds the return address; RTI returns nowhere. That
every TRAP answers a next state is the model's choice where a GETC or IN is held or a PUTS or PUTSP stands (log 10, log 11):
that state is the next state, and nothing is fetched from it until the routine has ended. -/
def Obligations.TrapReturnIsImplicit : Prop :=
  (∀ (s : State) (ign : BitVec 12), ∃ t, exec (.rti ign) s = .next t ∧ t.pc = s.pc) ∧
  (∀ s t : State, s.routine ≠ none → step s = .next t → t.pc = s.pc ∧
    (t.routine = none → step t = exec (decode (t.memRead s.pc).1) { (t.memRead s.pc).2 with pc := s.pc + 1 })) ∧
  ∀ (s : State) (ign : BitVec 4) (vec : BitVec 8), Idle s →
    ∃ t, exec (.trap ign vec) s = .next t ∧ t.pc = s.pc ∧ t.reg 7 = s.pc ∧
      (vec ≠ 0x25#8 → t.routine = none → step t = exec (decode (t.memRead s.pc).1) { (t.memRead s.pc).2 with pc := s.pc + 1 }) ∧
      (vec = 0x25#8 → step t = .fault .halted)

/-! ## Reserved opcodes and anomalies -/

/-- 44_reserved.md R113 and R114, with the record of R118 (its format is the spec's choice; log 8). -/
def Obligations.RtiAndResRecordAndDoNothing : Prop :=
  ∀ (s : State) (i : Instr), ((∃ ign, i = .rti ign) ∨ (∃ ign, i = .res ign)) →
    ∃ t, exec i s = .next t ∧ t.diag = s.diag ++ [⟨.invalidOpcode, s.pc - 1, encode i, none⟩] ∧
      t.out = s.out ∧ t.pc = s.pc ∧ t.cond = s.cond ∧ KeepsRegs [] s t ∧ KeepsMem s t ∧ KeepsKeyboard s t ∧ KeepsRun s t

/-- 60_exceptions.md R117: an anomaly saves nothing, changes no mode and moves PC nowhere, it leaves a diagnostic and
nothing else, and the next step fetches at PC. (An invalid TRAP's write of R7 is its own rule's.) -/
def Obligations.AnomalyIsNoTrap : Prop :=
  ∀ (s : State) (i : Instr), Idle s →
    ((∃ ign, i = .rti ign) ∨ (∃ ign, i = .res ign) ∨ (∃ ign vec, i = .trap ign vec ∧ validVector vec = false)) →
    ∃ t, exec i s = .next t ∧ t.pc = s.pc ∧ t.cond = s.cond ∧ KeepsRegs (writtenRegs i) s t ∧ KeepsMem s t ∧
      KeepsKeyboard s t ∧ KeepsRun s t ∧ t.out = s.out ∧ (∃ d, t.diag = s.diag ++ [d]) ∧
      (∀ ign vec, i = .trap ign vec → t.reg 7 = s.pc) ∧
      step t = exec (decode (t.memRead s.pc).1) { (t.memRead s.pc).2 with pc := s.pc + 1 }

/-! ## Whole-machine rules -/

/-- `exec` answers a next state for every instruction in every state. A state in which a GETC or IN is held, or a PUTS or
PUTSP stands, is one: the routine has not finished there, and that `exec` answers at all is the model's choice of where a step
ends (log 10, log 11), where the spec holds the step (43_trap.md R109). The answer has at most one anomaly more: InvalidOpcode
for RTI and RES only, InvalidTrapVector for an invalid TRAP only (44_reserved.md R115, 60_exceptions.md R116, R119). None
changes the parameters (10_state.md R31; log 17). -/
def Obligations.ExecAnswersANextStateWithAtMostOneRecord : Prop :=
  ∀ (i : Instr) (s : State), ∃ t, exec i s = .next t ∧ t.params = s.params ∧
    (t.diag = s.diag ∨ ∃ d, t.diag = s.diag ++ [d] ∧
      ((d.anomaly = .invalidOpcode ∧ ((∃ ign, i = .rti ign) ∨ ∃ ign, i = .res ign)) ∨
       (d.anomaly = .invalidTrapVector ∧ ∃ ign vec, i = .trap ign vec ∧ validVector vec = false)))

/-- 10_state.md R22: no instruction but ADD, AND, NOT, LD, LDI, LDR, LEA, and TRAP to GETC or IN, writes COND; and of the
routines in progress PUTS and PUTSP do not. -/
def Obligations.OnlyFlagSettersWriteCond : Prop :=
  (∀ (i : Instr) (s t : State), exec i s = .next t → setsFlags i = false → t.cond = s.cond) ∧
  (∀ (s t : State) (a : Word), (s.routine = some (.puts a) ∨ s.routine = some (.putsp a)) → step s = .next t →
    t.cond = s.cond)

/-- R19: the general registers each instruction may write. -/
def Obligations.OnlyNamedRegistersAreWritten : Prop :=
  ∀ (i : Instr) (s t : State), exec i s = .next t → KeepsRegs (writtenRegs i) s t

/-- 10_state.md section 7 and 20_memory.md R38: only ST, STI and STR write memory. -/
def Obligations.OnlyStoresWriteMemory : Prop :=
  ∀ (i : Instr) (s t : State), exec i s = .next t → storesMem i = false → KeepsMem s t

/-! ## The host -/

/-- 70_reset_and_hazards.md R134: each image overwrites the words it covers and no others, images apply in order, and
words no image covers keep 0x0000. The images end inside the address space: one past 0xFFFF is the model's choice (log 13),
and nothing is said of it. -/
def Obligations.ImagesLoadInOrder : Prop :=
  (∀ (s : State) (origin : Word) (ws : List Word) (a : Word), origin.toNat + ws.length ≤ 65536 →
    (s.loadImage origin ws).peek a = ws.getD (a - origin).toNat (s.peek a)) ∧
  (∀ (s : State) (ims : List (Word × List Word)) (im : Word × List Word),
    s.loadImages (ims ++ [im]) = (s.loadImages ims).loadImage im.1 im.2) ∧
  (∀ (ims : List (Word × List Word)) (a : Word), (∀ im ∈ ims, im.1.toNat + im.2.length ≤ 65536 ∧ im.2.length ≤ (a - im.1).toNat) →
    (State.reset.loadImages ims).peek a = 0x0000#16)
end

