-- ==== Sys2Proof/Laws/PerInstr.lean ====
section
/-! SUPPORT. Families of facts stated of every instruction, one lemma per constructor (LAWS.json). -/

namespace Sys2Proof.Laws.RowWord

open Sys2Proof

/-- The word an instruction encodes to is covered by the row of opcode_table.json it stands for. -/
def Statement (i : Instr) : Prop := rowCovers (rowOf i) (encode i) = true

/-- A covered word is one that has the row's fixed bits. -/
theorem covers_of_bits {r : Row} {w : Word} (h : ∀ k : Fin 16, (w.getLsbD k && r.mask.getLsbD k) = r.fixed.getLsbD k) :
    rowCovers r w = true := by
  rw [rowCovers, beq_iff_eq]
  apply BitVec.eq_of_getLsbD_eq
  intro k hk
  rw [BitVec.getLsbD_and]
  exact h ⟨k, hk⟩

theorem addReg (dr sr1 : RegNum) (ign : BitVec 2) (sr2 : RegNum) : Statement (.addReg dr sr1 ign sr2) := by
  apply covers_of_bits
  intro k
  fin_cases k <;> simp only [rowOf, encode, BitVec.getLsbD_append] <;> simp

theorem addImm (dr sr1 : RegNum) (imm5 : BitVec 5) : Statement (.addImm dr sr1 imm5) := by
  apply covers_of_bits
  intro k
  fin_cases k <;> simp only [rowOf, encode, BitVec.getLsbD_append] <;> simp

theorem andReg (dr sr1 : RegNum) (ign : BitVec 2) (sr2 : RegNum) : Statement (.andReg dr sr1 ign sr2) := by
  apply covers_of_bits
  intro k
  fin_cases k <;> simp only [rowOf, encode, BitVec.getLsbD_append] <;> simp

theorem andImm (dr sr1 : RegNum) (imm5 : BitVec 5) : Statement (.andImm dr sr1 imm5) := by
  apply covers_of_bits
  intro k
  fin_cases k <;> simp only [rowOf, encode, BitVec.getLsbD_append] <;> simp

theorem notReg (dr sr : RegNum) (ign : BitVec 6) : Statement (.notReg dr sr ign) := by
  apply covers_of_bits
  intro k
  fin_cases k <;> simp only [rowOf, encode, BitVec.getLsbD_append] <;> simp

theorem ld (dr : RegNum) (off9 : BitVec 9) : Statement (.ld dr off9) := by
  apply covers_of_bits
  intro k
  fin_cases k <;> simp only [rowOf, encode, BitVec.getLsbD_append] <;> simp

theorem ldi (dr : RegNum) (off9 : BitVec 9) : Statement (.ldi dr off9) := by
  apply covers_of_bits
  intro k
  fin_cases k <;> simp only [rowOf, encode, BitVec.getLsbD_append] <;> simp

theorem ldr (dr base : RegNum) (off6 : BitVec 6) : Statement (.ldr dr base off6) := by
  apply covers_of_bits
  intro k
  fin_cases k <;> simp only [rowOf, encode, BitVec.getLsbD_append] <;> simp

theorem lea (dr : RegNum) (off9 : BitVec 9) : Statement (.lea dr off9) := by
  apply covers_of_bits
  intro k
  fin_cases k <;> simp only [rowOf, encode, BitVec.getLsbD_append] <;> simp

theorem st (sr : RegNum) (off9 : BitVec 9) : Statement (.st sr off9) := by
  apply covers_of_bits
  intro k
  fin_cases k <;> simp only [rowOf, encode, BitVec.getLsbD_append] <;> simp

theorem sti (sr : RegNum) (off9 : BitVec 9) : Statement (.sti sr off9) := by
  apply covers_of_bits
  intro k
  fin_cases k <;> simp only [rowOf, encode, BitVec.getLsbD_append] <;> simp

theorem str (sr base : RegNum) (off6 : BitVec 6) : Statement (.str sr base off6) := by
  apply covers_of_bits
  intro k
  fin_cases k <;> simp only [rowOf, encode, BitVec.getLsbD_append] <;> simp

theorem br (nzp : BitVec 3) (off9 : BitVec 9) : Statement (.br nzp off9) := by
  apply covers_of_bits
  intro k
  fin_cases k <;> simp only [rowOf, encode, BitVec.getLsbD_append] <;> simp

theorem jmp (ignHi : BitVec 3) (base : RegNum) (ignLo : BitVec 6) : Statement (.jmp ignHi base ignLo) := by
  apply covers_of_bits
  intro k
  fin_cases k <;> simp only [rowOf, encode, BitVec.getLsbD_append] <;> simp

theorem jsr (off11 : BitVec 11) : Statement (.jsr off11) := by
  apply covers_of_bits
  intro k
  fin_cases k <;> simp only [rowOf, encode, BitVec.getLsbD_append] <;> simp

theorem jsrr (ignHi : BitVec 2) (base : RegNum) (ignLo : BitVec 6) : Statement (.jsrr ignHi base ignLo) := by
  apply covers_of_bits
  intro k
  fin_cases k <;> simp only [rowOf, encode, BitVec.getLsbD_append] <;> simp

theorem trap (ign : BitVec 4) (trapvect8 : BitVec 8) : Statement (.trap ign trapvect8) := by
  apply covers_of_bits
  intro k
  fin_cases k <;> simp only [rowOf, encode, BitVec.getLsbD_append] <;> simp

theorem rti (ign : BitVec 12) : Statement (.rti ign) := by
  apply covers_of_bits
  intro k
  fin_cases k <;> simp only [rowOf, encode, BitVec.getLsbD_append] <;> simp

theorem res (ign : BitVec 12) : Statement (.res ign) := by
  apply covers_of_bits
  intro k
  fin_cases k <;> simp only [rowOf, encode, BitVec.getLsbD_append] <;> simp

end Sys2Proof.Laws.RowWord
end

