-- ==== Sys2Proof/Laws/Decode.lean ====
section
/-! SUPPORT. Reading a field of a word bit by bit. -/

namespace Sys2Proof

/-- A field is the value whose bits stand at the field's place. -/
theorem extract_of_bits {n m lo : Nat} {w : BitVec n} {x : BitVec m}
    (h : ∀ k : Fin m, w.getLsbD (lo + k) = x.getLsbD k) : w.extractLsb' lo m = x := by
  apply BitVec.eq_of_getLsbD_eq
  intro k hk
  rw [BitVec.getLsbD_extractLsb']
  simpa [hk] using h ⟨k, hk⟩

/-- Words that agree under a mask agree at each of its bits. -/
theorem bit_of_masked {w w' m : Word} (h : w &&& m = w' &&& m) {k : Nat} (hm : m.getLsbD k = true) :
    w.getLsbD k = w'.getLsbD k := by
  have := congrArg (fun x : Word => x.getLsbD k) h
  simpa [hm] using this

end Sys2Proof
end

