-- ==== Sys2Proof/Laws/State.lean ====
section
/-! SUPPORT. What each named update of State does to each field, one small lemma each, so that no later proof unfolds a
record update. -/

namespace Sys2Proof.Machine

variable (s : State)

/-! ## Fields -/

@[simp] theorem State.setReg_pc (i : RegNum) (v : Word) : (s.setReg i v).pc = s.pc := rfl
@[simp] theorem State.setReg_cond (i : RegNum) (v : Word) : (s.setReg i v).cond = s.cond := rfl
@[simp] theorem State.setReg_mem (i : RegNum) (v : Word) : (s.setReg i v).mem = s.mem := rfl
@[simp] theorem State.setReg_kbsr (i : RegNum) (v : Word) : (s.setReg i v).kbsr = s.kbsr := rfl
@[simp] theorem State.setReg_kbdr (i : RegNum) (v : Word) : (s.setReg i v).kbdr = s.kbdr := rfl
@[simp] theorem State.setReg_run (i : RegNum) (v : Word) : (s.setReg i v).run = s.run := rfl
@[simp] theorem State.setReg_inq (i : RegNum) (v : Word) : (s.setReg i v).inq = s.inq := rfl
@[simp] theorem State.setReg_out (i : RegNum) (v : Word) : (s.setReg i v).out = s.out := rfl
@[simp] theorem State.setReg_diag (i : RegNum) (v : Word) : (s.setReg i v).diag = s.diag := rfl
@[simp] theorem State.setReg_routine (i : RegNum) (v : Word) : (s.setReg i v).routine = s.routine := rfl
@[simp] theorem State.setReg_params (i : RegNum) (v : Word) : (s.setReg i v).params = s.params := rfl

@[simp] theorem State.setcc_pc (v : Word) : (s.setcc v).pc = s.pc := rfl
@[simp] theorem State.setcc_cond (v : Word) : (s.setcc v).cond = condOf v := rfl
@[simp] theorem State.setcc_mem (v : Word) : (s.setcc v).mem = s.mem := rfl
@[simp] theorem State.setcc_kbsr (v : Word) : (s.setcc v).kbsr = s.kbsr := rfl
@[simp] theorem State.setcc_kbdr (v : Word) : (s.setcc v).kbdr = s.kbdr := rfl
@[simp] theorem State.setcc_run (v : Word) : (s.setcc v).run = s.run := rfl
@[simp] theorem State.setcc_inq (v : Word) : (s.setcc v).inq = s.inq := rfl
@[simp] theorem State.setcc_out (v : Word) : (s.setcc v).out = s.out := rfl
@[simp] theorem State.setcc_diag (v : Word) : (s.setcc v).diag = s.diag := rfl
@[simp] theorem State.setcc_routine (v : Word) : (s.setcc v).routine = s.routine := rfl
@[simp] theorem State.setcc_params (v : Word) : (s.setcc v).params = s.params := rfl

@[simp] theorem State.setRegCC_pc (i : RegNum) (v : Word) : (s.setRegCC i v).pc = s.pc := rfl
@[simp] theorem State.setRegCC_cond (i : RegNum) (v : Word) : (s.setRegCC i v).cond = condOf v := rfl
@[simp] theorem State.setRegCC_mem (i : RegNum) (v : Word) : (s.setRegCC i v).mem = s.mem := rfl
@[simp] theorem State.setRegCC_kbsr (i : RegNum) (v : Word) : (s.setRegCC i v).kbsr = s.kbsr := rfl
@[simp] theorem State.setRegCC_kbdr (i : RegNum) (v : Word) : (s.setRegCC i v).kbdr = s.kbdr := rfl
@[simp] theorem State.setRegCC_run (i : RegNum) (v : Word) : (s.setRegCC i v).run = s.run := rfl
@[simp] theorem State.setRegCC_inq (i : RegNum) (v : Word) : (s.setRegCC i v).inq = s.inq := rfl
@[simp] theorem State.setRegCC_out (i : RegNum) (v : Word) : (s.setRegCC i v).out = s.out := rfl
@[simp] theorem State.setRegCC_diag (i : RegNum) (v : Word) : (s.setRegCC i v).diag = s.diag := rfl
@[simp] theorem State.setRegCC_routine (i : RegNum) (v : Word) : (s.setRegCC i v).routine = s.routine := rfl
@[simp] theorem State.setRegCC_params (i : RegNum) (v : Word) : (s.setRegCC i v).params = s.params := rfl

@[simp] theorem State.poke_pc (a v : Word) : (s.poke a v).pc = s.pc := rfl
@[simp] theorem State.poke_cond (a v : Word) : (s.poke a v).cond = s.cond := rfl
@[simp] theorem State.poke_mem (a v : Word) : (s.poke a v).mem = s.mem.write a.toNat v := rfl
@[simp] theorem State.poke_kbsr (a v : Word) : (s.poke a v).kbsr = s.kbsr := rfl
@[simp] theorem State.poke_kbdr (a v : Word) : (s.poke a v).kbdr = s.kbdr := rfl
@[simp] theorem State.poke_run (a v : Word) : (s.poke a v).run = s.run := rfl
@[simp] theorem State.poke_inq (a v : Word) : (s.poke a v).inq = s.inq := rfl
@[simp] theorem State.poke_out (a v : Word) : (s.poke a v).out = s.out := rfl
@[simp] theorem State.poke_diag (a v : Word) : (s.poke a v).diag = s.diag := rfl
@[simp] theorem State.poke_routine (a v : Word) : (s.poke a v).routine = s.routine := rfl
@[simp] theorem State.poke_params (a v : Word) : (s.poke a v).params = s.params := rfl

@[simp] theorem State.emit_pc (bs : List Byte) : (s.emit bs).pc = s.pc := rfl
@[simp] theorem State.emit_cond (bs : List Byte) : (s.emit bs).cond = s.cond := rfl
@[simp] theorem State.emit_mem (bs : List Byte) : (s.emit bs).mem = s.mem := rfl
@[simp] theorem State.emit_kbsr (bs : List Byte) : (s.emit bs).kbsr = s.kbsr := rfl
@[simp] theorem State.emit_kbdr (bs : List Byte) : (s.emit bs).kbdr = s.kbdr := rfl
@[simp] theorem State.emit_run (bs : List Byte) : (s.emit bs).run = s.run := rfl
@[simp] theorem State.emit_inq (bs : List Byte) : (s.emit bs).inq = s.inq := rfl
@[simp] theorem State.emit_out (bs : List Byte) : (s.emit bs).out = s.out ++ bs := rfl
@[simp] theorem State.emit_diag (bs : List Byte) : (s.emit bs).diag = s.diag := rfl
@[simp] theorem State.emit_routine (bs : List Byte) : (s.emit bs).routine = s.routine := rfl
@[simp] theorem State.emit_params (bs : List Byte) : (s.emit bs).params = s.params := rfl

@[simp] theorem State.raise_pc (k : Anomaly) (w : Word) (v : Option Byte) : (s.raise k w v).pc = s.pc := rfl
@[simp] theorem State.raise_cond (k : Anomaly) (w : Word) (v : Option Byte) : (s.raise k w v).cond = s.cond := rfl
@[simp] theorem State.raise_mem (k : Anomaly) (w : Word) (v : Option Byte) : (s.raise k w v).mem = s.mem := rfl
@[simp] theorem State.raise_kbsr (k : Anomaly) (w : Word) (v : Option Byte) : (s.raise k w v).kbsr = s.kbsr := rfl
@[simp] theorem State.raise_kbdr (k : Anomaly) (w : Word) (v : Option Byte) : (s.raise k w v).kbdr = s.kbdr := rfl
@[simp] theorem State.raise_run (k : Anomaly) (w : Word) (v : Option Byte) : (s.raise k w v).run = s.run := rfl
@[simp] theorem State.raise_inq (k : Anomaly) (w : Word) (v : Option Byte) : (s.raise k w v).inq = s.inq := rfl
@[simp] theorem State.raise_out (k : Anomaly) (w : Word) (v : Option Byte) : (s.raise k w v).out = s.out := rfl
@[simp] theorem State.raise_diag (k : Anomaly) (w : Word) (v : Option Byte) : (s.raise k w v).diag = s.diag ++ [⟨k, s.pc - 1, w, v⟩] := rfl
@[simp] theorem State.raise_routine (k : Anomaly) (w : Word) (v : Option Byte) : (s.raise k w v).routine = s.routine := rfl
@[simp] theorem State.raise_params (k : Anomaly) (w : Word) (v : Option Byte) : (s.raise k w v).params = s.params := rfl

@[simp] theorem State.trapEntry_pc : (s.trapEntry).pc = s.pc := rfl
@[simp] theorem State.trapEntry_cond : (s.trapEntry).cond = s.cond := rfl
@[simp] theorem State.trapEntry_mem : (s.trapEntry).mem = s.mem := rfl
@[simp] theorem State.trapEntry_kbsr : (s.trapEntry).kbsr = s.kbsr := rfl
@[simp] theorem State.trapEntry_kbdr : (s.trapEntry).kbdr = s.kbdr := rfl
@[simp] theorem State.trapEntry_run : (s.trapEntry).run = s.run := rfl
@[simp] theorem State.trapEntry_inq : (s.trapEntry).inq = s.inq := rfl
@[simp] theorem State.trapEntry_out : (s.trapEntry).out = s.out := rfl
@[simp] theorem State.trapEntry_diag : (s.trapEntry).diag = s.diag := rfl
@[simp] theorem State.trapEntry_routine : (s.trapEntry).routine = s.routine := rfl
@[simp] theorem State.trapEntry_params : (s.trapEntry).params = s.params := rfl

@[simp] theorem State.halt_pc : (s.halt).pc = s.pc := rfl
@[simp] theorem State.halt_cond : (s.halt).cond = s.cond := rfl
@[simp] theorem State.halt_mem : (s.halt).mem = s.mem := rfl
@[simp] theorem State.halt_kbsr : (s.halt).kbsr = s.kbsr := rfl
@[simp] theorem State.halt_kbdr : (s.halt).kbdr = s.kbdr := rfl
@[simp] theorem State.halt_run : (s.halt).run = .halted := rfl
@[simp] theorem State.halt_inq : (s.halt).inq = s.inq := rfl
@[simp] theorem State.halt_out : (s.halt).out = s.out := rfl
@[simp] theorem State.halt_diag : (s.halt).diag = s.diag := rfl
@[simp] theorem State.halt_routine : (s.halt).routine = s.routine := rfl
@[simp] theorem State.halt_params : (s.halt).params = s.params := rfl

@[simp] theorem State.jump_pc (a : Word) : (s.jump a).pc = a := rfl
@[simp] theorem State.jump_cond (a : Word) : (s.jump a).cond = s.cond := rfl
@[simp] theorem State.jump_mem (a : Word) : (s.jump a).mem = s.mem := rfl
@[simp] theorem State.jump_kbsr (a : Word) : (s.jump a).kbsr = s.kbsr := rfl
@[simp] theorem State.jump_kbdr (a : Word) : (s.jump a).kbdr = s.kbdr := rfl
@[simp] theorem State.jump_run (a : Word) : (s.jump a).run = s.run := rfl
@[simp] theorem State.jump_inq (a : Word) : (s.jump a).inq = s.inq := rfl
@[simp] theorem State.jump_out (a : Word) : (s.jump a).out = s.out := rfl
@[simp] theorem State.jump_diag (a : Word) : (s.jump a).diag = s.diag := rfl
@[simp] theorem State.jump_routine (a : Word) : (s.jump a).routine = s.routine := rfl
@[simp] theorem State.jump_params (a : Word) : (s.jump a).params = s.params := rfl

@[simp] theorem State.supplyInput_pc (b : Byte) : (s.supplyInput b).pc = s.pc := rfl
@[simp] theorem State.supplyInput_cond (b : Byte) : (s.supplyInput b).cond = s.cond := rfl
@[simp] theorem State.supplyInput_mem (b : Byte) : (s.supplyInput b).mem = s.mem := rfl
@[simp] theorem State.supplyInput_kbsr (b : Byte) : (s.supplyInput b).kbsr = s.kbsr := rfl
@[simp] theorem State.supplyInput_kbdr (b : Byte) : (s.supplyInput b).kbdr = s.kbdr := rfl
@[simp] theorem State.supplyInput_run (b : Byte) : (s.supplyInput b).run = s.run := rfl
@[simp] theorem State.supplyInput_inq (b : Byte) : (s.supplyInput b).inq = s.inq ++ [b] := rfl
@[simp] theorem State.supplyInput_out (b : Byte) : (s.supplyInput b).out = s.out := rfl
@[simp] theorem State.supplyInput_diag (b : Byte) : (s.supplyInput b).diag = s.diag := rfl
@[simp] theorem State.supplyInput_routine (b : Byte) : (s.supplyInput b).routine = s.routine := rfl
@[simp] theorem State.supplyInput_params (b : Byte) : (s.supplyInput b).params = s.params := rfl

@[simp] theorem State.hostSetPc_pc (a : Word) : (s.hostSetPc a).pc = a := rfl
@[simp] theorem State.hostSetPc_cond (a : Word) : (s.hostSetPc a).cond = s.cond := rfl
@[simp] theorem State.hostSetPc_mem (a : Word) : (s.hostSetPc a).mem = s.mem := rfl
@[simp] theorem State.hostSetPc_kbsr (a : Word) : (s.hostSetPc a).kbsr = s.kbsr := rfl
@[simp] theorem State.hostSetPc_kbdr (a : Word) : (s.hostSetPc a).kbdr = s.kbdr := rfl
@[simp] theorem State.hostSetPc_run (a : Word) : (s.hostSetPc a).run = s.run := rfl
@[simp] theorem State.hostSetPc_inq (a : Word) : (s.hostSetPc a).inq = s.inq := rfl
@[simp] theorem State.hostSetPc_out (a : Word) : (s.hostSetPc a).out = s.out := rfl
@[simp] theorem State.hostSetPc_diag (a : Word) : (s.hostSetPc a).diag = s.diag := rfl
@[simp] theorem State.hostSetPc_routine (a : Word) : (s.hostSetPc a).routine = s.routine := rfl
@[simp] theorem State.hostSetPc_params (a : Word) : (s.hostSetPc a).params = s.params := rfl

@[simp] theorem State.configure_regs (p : Params) : (s.configure p).regs = s.regs := rfl
@[simp] theorem State.configure_pc (p : Params) : (s.configure p).pc = s.pc := rfl
@[simp] theorem State.configure_cond (p : Params) : (s.configure p).cond = s.cond := rfl
@[simp] theorem State.configure_mem (p : Params) : (s.configure p).mem = s.mem := rfl
@[simp] theorem State.configure_kbsr (p : Params) : (s.configure p).kbsr = s.kbsr := rfl
@[simp] theorem State.configure_kbdr (p : Params) : (s.configure p).kbdr = s.kbdr := rfl
@[simp] theorem State.configure_run (p : Params) : (s.configure p).run = s.run := rfl
@[simp] theorem State.configure_inq (p : Params) : (s.configure p).inq = s.inq := rfl
@[simp] theorem State.configure_out (p : Params) : (s.configure p).out = s.out := rfl
@[simp] theorem State.configure_diag (p : Params) : (s.configure p).diag = s.diag := rfl
@[simp] theorem State.configure_routine (p : Params) : (s.configure p).routine = s.routine := rfl
@[simp] theorem State.configure_params (p : Params) : (s.configure p).params = p := rfl

@[simp] theorem State.flush_eq : s.flush = s := rfl

/-! ## Registers and array cells -/

/-- A register reads what was last written to it, and the others are left. -/
theorem State.reg_setReg (i r : RegNum) (v : Word) : (s.setReg i v).reg r = if r = i then v else s.reg r := by
  simp only [State.reg, State.setReg, Vector.getElem_set, ← BitVec.toNat_inj, eq_comm]

@[simp] theorem State.reg_setReg_same (i : RegNum) (v : Word) : (s.setReg i v).reg i = v := by
  simp [State.reg_setReg]

theorem State.reg_setReg_other {i r : RegNum} (h : r ≠ i) (v : Word) : (s.setReg i v).reg r = s.reg r := by
  simp [State.reg_setReg, h]

@[simp] theorem State.reg_setcc (r : RegNum) (v : Word) : (s.setcc v).reg r = s.reg r := rfl
@[simp] theorem State.reg_setRegCC (i r : RegNum) (v : Word) : (s.setRegCC i v).reg r = if r = i then v else s.reg r :=
  s.reg_setReg i r v
@[simp] theorem State.reg_poke (r : RegNum) (a v : Word) : (s.poke a v).reg r = s.reg r := rfl
@[simp] theorem State.reg_emit (r : RegNum) (bs : List Byte) : (s.emit bs).reg r = s.reg r := rfl
@[simp] theorem State.reg_raise (r : RegNum) (k : Anomaly) (w : Word) (v : Option Byte) : (s.raise k w v).reg r = s.reg r := rfl
@[simp] theorem State.reg_trapEntry (r : RegNum) : s.trapEntry.reg r = if r = 7 then s.pc else s.reg r :=
  s.reg_setReg 7 r s.pc
@[simp] theorem State.reg_halt (r : RegNum) : s.halt.reg r = s.reg r := rfl
@[simp] theorem State.reg_jump (r : RegNum) (a : Word) : (s.jump a).reg r = s.reg r := rfl
@[simp] theorem State.reg_supplyInput (r : RegNum) (b : Byte) : (s.supplyInput b).reg r = s.reg r := rfl
@[simp] theorem State.reg_hostSetPc (r : RegNum) (a : Word) : (s.hostSetPc a).reg r = s.reg r := rfl
@[simp] theorem State.reg_reset (r : RegNum) : State.reset.reg r = 0x0000#16 := by
  simp [State.reg, State.reset]

@[simp] theorem State.peek_setReg (a : Word) (i : RegNum) (v : Word) : (s.setReg i v).peek a = s.peek a := rfl
@[simp] theorem State.peek_setcc (a v : Word) : (s.setcc v).peek a = s.peek a := rfl
@[simp] theorem State.peek_setRegCC (a : Word) (i : RegNum) (v : Word) : (s.setRegCC i v).peek a = s.peek a := rfl
@[simp] theorem State.peek_emit (a : Word) (bs : List Byte) : (s.emit bs).peek a = s.peek a := rfl
@[simp] theorem State.peek_raise (a : Word) (k : Anomaly) (w : Word) (v : Option Byte) : (s.raise k w v).peek a = s.peek a := rfl
@[simp] theorem State.peek_trapEntry (a : Word) : s.trapEntry.peek a = s.peek a := rfl
@[simp] theorem State.peek_halt (a : Word) : s.halt.peek a = s.peek a := rfl
@[simp] theorem State.peek_jump (a b : Word) : (s.jump b).peek a = s.peek a := rfl
@[simp] theorem State.peek_supplyInput (a : Word) (b : Byte) : (s.supplyInput b).peek a = s.peek a := rfl
@[simp] theorem State.peek_hostSetPc (a b : Word) : (s.hostSetPc b).peek a = s.peek a := rfl

end Sys2Proof.Machine
end

