-- ==== Sys2Proof/Laws/Flags.lean ====
section
/-! SUPPORT. The condition flags. -/

namespace Sys2Proof.Machine

/-- `setcc` always writes exactly one of N, Z and P (10_state.md R23). -/
theorem condOf_legal (v : Word) : condOf v = flagN ∨ condOf v = flagZ ∨ condOf v = flagP := by
  unfold condOf
  split
  · exact .inl rfl
  · split
    · exact .inr (.inl rfl)
    · exact .inr (.inr rfl)

/-- `setcc(v)` says the sign of `v` (10_state.md R22). -/
theorem flagsMatch_of_cond {t : State} {v : Word} (h : t.cond = condOf v) : FlagsMatch t v := by
  rw [FlagsMatch, h, condOf]
  refine ⟨fun hv => ?_, fun hv => ?_, fun hv => ?_⟩
  · have hm : v.msb = true := by
      by_contra hc
      have := BitVec.toInt_nonneg_of_msb_false (Bool.eq_false_iff.mpr hc)
      omega
    simp [hm, flagN]
  · subst hv
    decide
  · have hm : v.msb = false := by
      by_contra hc
      have := BitVec.toInt_neg_of_msb_true (Bool.not_eq_false _ ▸ hc)
      omega
    have hz : v ≠ 0x0000#16 := by
      rintro rfl
      exact absurd hv (by decide)
    simp only [hm, hz, if_false, Bool.false_eq_true]
    rfl

end Sys2Proof.Machine
end

