-- ==== Sys2Proof/Laws/Memory.lean ====
section
/-! SUPPORT. The memory array: what a read after a write gives, and that every write keeps the canonical form. -/

namespace Sys2Proof.Machine

theorem Memory.read_erase (m : Memory) (a x : Nat) :
    (Memory.erase m a).read x = if x = a then 0x0000#16 else Memory.read m x := by
  induction m with
  | nil => simp [Memory.erase, Memory.read]
  | cons c rest ih =>
    obtain ⟨b, v⟩ := c
    by_cases hb : b = a
    · subst hb
      rw [Memory.erase, if_pos rfl, ih, Memory.read]
      by_cases hx : x = b
      · rw [if_pos hx, if_pos hx]
      · rw [if_neg hx, if_neg hx, if_neg (Ne.symm hx)]
    · by_cases hx : b = x
      · subst hx; simp [Memory.erase, Memory.read, hb]
      · simp [Memory.erase, Memory.read, hb, hx, ih]

theorem Memory.read_insert (m : Memory) (a x : Nat) (v : Word) (h : ∀ u, (a, u) ∉ m) :
    (Memory.insert m a v).read x = if x = a then v else Memory.read m x := by
  induction m with
  | nil => simp [Memory.insert, Memory.read, eq_comm]
  | cons c rest ih =>
    obtain ⟨b, u⟩ := c
    have hb : b ≠ a := by rintro rfl; exact h u (by simp)
    have ih := ih (fun w hw => h w (by simp [hw]))
    by_cases hlt : a < b
    · simp [Memory.insert, Memory.read, hlt, eq_comm]
    · by_cases hx : b = x
      · subst hx; simp [Memory.insert, Memory.read, hlt, hb]
      · simp [Memory.insert, Memory.read, hlt, hx, ih]

theorem Memory.not_mem_erase (m : Memory) (a : Nat) (u : Word) : (a, u) ∉ Memory.erase m a := by
  induction m with
  | nil => simp [Memory.erase]
  | cons c rest ih =>
    obtain ⟨b, v⟩ := c
    by_cases hb : b = a
    · simpa [Memory.erase, hb] using ih
    · simp [Memory.erase, hb, ih, Ne.symm hb]

/-- The law of the array: a read gives the word last written there, or what the cell held. It holds of every list, in
canonical form or not. -/
theorem Memory.read_write (m : Memory) (a x : Nat) (v : Word) :
    (Memory.write m a v).read x = if x = a then v else Memory.read m x := by
  unfold Memory.write
  split
  · next h => subst h; exact Memory.read_erase m a x
  · rw [Memory.read_insert _ _ _ _ (Memory.not_mem_erase m a), Memory.read_erase]
    split <;> rfl

theorem Memory.wfFrom_mono {lo lo' : Nat} {m : Memory} (hl : lo' ≤ lo) (h : Memory.wfFrom lo m = true) :
    Memory.wfFrom lo' m = true := by
  cases m with
  | nil => rfl
  | cons c rest =>
    obtain ⟨b, v⟩ := c
    simp only [Memory.wfFrom, Bool.and_eq_true, decide_eq_true_eq] at h ⊢
    exact ⟨⟨⟨by omega, h.1.1.2⟩, h.1.2⟩, h.2⟩

theorem Memory.wfFrom_erase {lo : Nat} {m : Memory} (a : Nat) (h : Memory.wfFrom lo m = true) :
    Memory.wfFrom lo (Memory.erase m a) = true := by
  induction m generalizing lo with
  | nil => rfl
  | cons c rest ih =>
    obtain ⟨b, v⟩ := c
    simp only [Memory.wfFrom, Bool.and_eq_true, decide_eq_true_eq] at h
    by_cases hb : b = a
    · simpa [Memory.erase, hb] using ih (Memory.wfFrom_mono (by omega) h.2)
    · simp only [Memory.erase, hb, if_false, Memory.wfFrom, Bool.and_eq_true, decide_eq_true_eq]
      exact ⟨h.1, ih h.2⟩

theorem Memory.wfFrom_insert {lo : Nat} {m : Memory} {a : Nat} {v : Word} (h : Memory.wfFrom lo m = true)
    (hlo : lo ≤ a) (ha : a < 65536) (hv : v ≠ 0x0000#16) (hn : ∀ u, (a, u) ∉ m) :
    Memory.wfFrom lo (Memory.insert m a v) = true := by
  induction m generalizing lo with
  | nil => simp [Memory.insert, Memory.wfFrom, hlo, ha, hv]
  | cons c rest ih =>
    obtain ⟨b, u⟩ := c
    have hb : b ≠ a := by rintro rfl; exact hn u (by simp)
    simp only [Memory.wfFrom, Bool.and_eq_true, decide_eq_true_eq] at h
    by_cases hlt : a < b
    · simp only [Memory.insert, hlt, if_true, Memory.wfFrom, Bool.and_eq_true, decide_eq_true_eq]
      exact ⟨⟨⟨hlo, ha⟩, hv⟩, ⟨⟨by omega, h.1.1.2⟩, h.1.2⟩, h.2⟩
    · simp only [Memory.insert, hlt, if_false, Memory.wfFrom, Bool.and_eq_true, decide_eq_true_eq]
      exact ⟨h.1, ih h.2 (by omega) (fun w hw => hn w (by simp [hw]))⟩

/-- Every write keeps the canonical form. -/
theorem Memory.wf_write {m : Memory} (h : m.wf = true) (a v : Word) : (m.write a.toNat v).wf = true := by
  unfold Memory.write
  split
  · exact Memory.wfFrom_erase _ h
  · next hv =>
    exact Memory.wfFrom_insert (Memory.wfFrom_erase _ h) (by omega) a.isLt hv (Memory.not_mem_erase m _)

/-- Reset's memory is in canonical form. -/
theorem Memory.wf_reset : State.reset.mem.wf = true := rfl

variable (s : State)

theorem State.peek_poke (a v x : Word) : (s.poke a v).peek x = if x = a then v else s.peek x := by
  simp only [State.peek, State.poke, Memory.read_write, BitVec.toNat_inj]

@[simp] theorem State.peek_reset (a : Word) : State.reset.peek a = 0x0000#16 := rfl

end Sys2Proof.Machine
end

