-- ==== Sys2Proof/Laws/Ops.lean ====
section
/-! SUPPORT. The memory port, the fetch and the console reads: for each, once, everything it can do. -/

namespace Sys2Proof.Machine

variable (s : State)

/-! ## MemRead -/

/-- The input queue is empty or has a head. -/
theorem State.inq_cases : s.inq = [] ∨ ∃ c rest, s.inq = c :: rest := by
  cases s.inq <;> simp

theorem State.readChar_nil (h : s.inq = []) : s.readChar = none := by simp [State.readChar, h]

theorem State.readChar_cons {c : Byte} {rest : List Byte} (h : s.inq = c :: rest) :
    s.readChar = some (c, { s with inq := rest }) := by simp [State.readChar, h]

theorem State.memRead_plain {a : Word} (h : a ≠ s.params.kbsrAddr) (h' : a ≠ s.params.kbdrAddr) :
    s.memRead a = (s.peek a, s) := by simp [State.memRead, h, h']

theorem State.memRead_kbdr (h : s.params.kbsrAddr ≠ s.params.kbdrAddr) : s.memRead s.params.kbdrAddr = (s.kbdr, s) := by
  simp [State.memRead, Ne.symm h]

theorem State.memRead_kbsr_empty (h : s.inq = []) :
    s.memRead s.params.kbsrAddr = (0x0000#16, { s with kbsr := 0x0000#16 }) := by
  simp [State.memRead, State.kbsrRead, s.readChar_nil h]

theorem State.memRead_kbsr_key {c : Byte} {rest : List Byte} (h : s.inq = c :: rest) :
    s.memRead s.params.kbsrAddr =
      (0x8000#16, { s with inq := rest, kbsr := 0x8000#16, kbdr := c.setWidth 16 }) := by
  simp [State.memRead, State.kbsrRead, s.readChar_cons h]

/-- A read of any address but KBSR_ADDR changes nothing (20_memory.md R48). -/
theorem State.memRead_state {a : Word} (h : a ≠ s.params.kbsrAddr) : (s.memRead a).2 = s := by
  rw [State.memRead, if_neg h]
  split <;> rfl

/-- All that a read can do to the state: nothing, a poll that finds no key, or a poll that takes one (R40, R41). -/
theorem State.memRead_cases (a : Word) :
    (s.memRead a).2 = s ∨
    (s.inq = [] ∧ (s.memRead a).2 = { s with kbsr := 0x0000#16 }) ∨
    (∃ c rest, s.inq = c :: rest ∧
      (s.memRead a).2 = { s with inq := rest, kbsr := 0x8000#16, kbdr := c.setWidth 16 }) := by
  by_cases h : a = s.params.kbsrAddr
  · subst h
    rcases s.inq_cases with hq | ⟨c, rest, hq⟩
    · exact .inr (.inl ⟨hq, by rw [s.memRead_kbsr_empty hq]⟩)
    · exact .inr (.inr ⟨c, rest, hq, by rw [s.memRead_kbsr_key hq]⟩)
  · exact .inl (s.memRead_state h)

/-- What no read changes. -/
theorem State.memRead_keeps (a : Word) :
    (s.memRead a).2.regs = s.regs ∧ (s.memRead a).2.pc = s.pc ∧ (s.memRead a).2.cond = s.cond ∧
    (s.memRead a).2.mem = s.mem ∧ (s.memRead a).2.run = s.run ∧ (s.memRead a).2.out = s.out ∧
    (s.memRead a).2.diag = s.diag ∧ (s.memRead a).2.routine = s.routine ∧ (s.memRead a).2.params = s.params := by
  rcases s.memRead_cases a with h | ⟨-, h⟩ | ⟨c, rest, -, h⟩ <;> rw [h] <;> simp

@[simp] theorem State.memRead_regs (a : Word) : (s.memRead a).2.regs = s.regs := (s.memRead_keeps a).1
@[simp] theorem State.memRead_pc (a : Word) : (s.memRead a).2.pc = s.pc := (s.memRead_keeps a).2.1
@[simp] theorem State.memRead_cond (a : Word) : (s.memRead a).2.cond = s.cond := (s.memRead_keeps a).2.2.1
@[simp] theorem State.memRead_mem (a : Word) : (s.memRead a).2.mem = s.mem := (s.memRead_keeps a).2.2.2.1
@[simp] theorem State.memRead_run (a : Word) : (s.memRead a).2.run = s.run := (s.memRead_keeps a).2.2.2.2.1
@[simp] theorem State.memRead_out (a : Word) : (s.memRead a).2.out = s.out := (s.memRead_keeps a).2.2.2.2.2.1
@[simp] theorem State.memRead_diag (a : Word) : (s.memRead a).2.diag = s.diag := (s.memRead_keeps a).2.2.2.2.2.2.1
@[simp] theorem State.memRead_routine (a : Word) : (s.memRead a).2.routine = s.routine :=
  (s.memRead_keeps a).2.2.2.2.2.2.2.1
@[simp] theorem State.memRead_params (a : Word) : (s.memRead a).2.params = s.params :=
  (s.memRead_keeps a).2.2.2.2.2.2.2.2
@[simp] theorem State.reg_memRead (a : Word) (r : RegNum) : (s.memRead a).2.reg r = s.reg r := by
  simp [State.reg]
@[simp] theorem State.peek_memRead (a x : Word) : (s.memRead a).2.peek x = s.peek x := by simp [State.peek]

/-- A read takes from the input queue at its head only. -/
theorem State.memRead_inq (a : Word) : (s.memRead a).2.inq <:+ s.inq := by
  rcases s.memRead_cases a with h | ⟨-, h⟩ | ⟨c, rest, hq, h⟩ <;> rw [h]
  exact hq ▸ List.suffix_cons c rest

/-! ## MemWrite -/

theorem State.memWrite_discarded {a : Word} (h : a = s.params.kbsrAddr ∨ a = s.params.kbdrAddr) (v : Word) :
    s.memWrite a v = s := by simp [State.memWrite, h]

theorem State.memWrite_plain {a : Word} (h : a ≠ s.params.kbsrAddr) (h' : a ≠ s.params.kbdrAddr) (v : Word) :
    s.memWrite a v = s.poke a v := by simp [State.memWrite, h, h']

/-- All that a write can do: nothing, or one cell (R43, R44). -/
theorem State.memWrite_cases (a v : Word) : s.memWrite a v = s ∨ s.memWrite a v = s.poke a v := by
  unfold State.memWrite; split
  · exact .inl rfl
  · exact .inr rfl

/-- What no write changes: all but the memory array. -/
theorem State.memWrite_keeps (a v : Word) :
    (s.memWrite a v).regs = s.regs ∧ (s.memWrite a v).pc = s.pc ∧ (s.memWrite a v).cond = s.cond ∧
    (s.memWrite a v).kbsr = s.kbsr ∧ (s.memWrite a v).kbdr = s.kbdr ∧ (s.memWrite a v).run = s.run ∧
    (s.memWrite a v).inq = s.inq ∧ (s.memWrite a v).out = s.out ∧ (s.memWrite a v).diag = s.diag ∧
    (s.memWrite a v).routine = s.routine ∧ (s.memWrite a v).params = s.params := by
  rcases s.memWrite_cases a v with h | h <;> rw [h] <;> exact ⟨rfl, rfl, rfl, rfl, rfl, rfl, rfl, rfl, rfl, rfl, rfl⟩

/-- A write keeps the canonical form of memory. -/
theorem State.memWrite_wf (h : s.mem.wf = true) (a v : Word) : (s.memWrite a v).mem.wf = true := by
  rcases s.memWrite_cases a v with e | e <;> rw [e]
  · exact h
  · exact Memory.wf_write h a v

/-! ## The fetch -/

@[simp] theorem State.fetch_pc : s.fetch.2.pc = s.pc + 1 := by simp [State.fetch]
@[simp] theorem State.reg_fetch (r : RegNum) : s.fetch.2.reg r = s.reg r := by simp [State.fetch, State.reg]
@[simp] theorem State.fetch_cond : s.fetch.2.cond = s.cond := by simp [State.fetch]
@[simp] theorem State.fetch_mem : s.fetch.2.mem = s.mem := by simp [State.fetch]
@[simp] theorem State.fetch_run : s.fetch.2.run = s.run := by simp [State.fetch]
@[simp] theorem State.fetch_out : s.fetch.2.out = s.out := by simp [State.fetch]
@[simp] theorem State.fetch_diag : s.fetch.2.diag = s.diag := by simp [State.fetch]
@[simp] theorem State.fetch_routine : s.fetch.2.routine = s.routine := by simp [State.fetch]
@[simp] theorem State.fetch_params : s.fetch.2.params = s.params := by simp [State.fetch]

/-! ## The step -/

theorem step_halted {s : State} (h : s.run = .halted) : step s = .fault .halted := by simp [step, h]

theorem step_fetch {s : State} (h : s.run = .running) (hr : s.routine = none) :
    step s = exec (decode s.fetch.1) s.fetch.2 := by simp [step, h, hr]

theorem step_resume {s : State} (h : s.run = .running) {r : Routine} (hr : s.routine = some r) :
    step s = resume r s := by simp [step, h, hr]

/-- Every step that answers a next state is a fetch and one instruction, or a part of a routine in progress. -/
theorem step_next_cases {s t : State} (h : step s = .next t) :
    s.run = .running ∧
    ((s.routine = none ∧ exec (decode s.fetch.1) s.fetch.2 = .next t) ∨
     (∃ r, s.routine = some r ∧ resume r s = .next t)) := by
  cases hr : s.run with
  | halted => rw [step_halted hr] at h; cases h
  | running =>
    cases hk : s.routine with
    | none => exact ⟨rfl, .inl ⟨rfl, by rwa [step_fetch hr hk] at h⟩⟩
    | some r => exact ⟨rfl, .inr ⟨r, rfl, by rwa [step_resume hr hk] at h⟩⟩

end Sys2Proof.Machine
end

