-- ==== Sys2Proof/Laws/Trap.lean ====
section
/-! SUPPORT. The trap routines: for each, once, everything it can do (43_trap.md R102-R110). -/

namespace Sys2Proof.Machine

variable (s : State)

/-- GETC is held with no input, and otherwise takes the head of the queue into R0 (R102). -/
theorem State.getc_cases :
    (s.inq = [] ∧ s.getc = { s with routine := some .getc }) ∨
    (∃ c rest, s.inq = c :: rest ∧
      s.getc = { s with inq := rest, routine := none }.setRegCC 0 (zext c)) := by
  rcases s.inq_cases with hq | ⟨c, rest, hq⟩
  · exact .inl ⟨hq, by rw [State.getc, s.readChar_nil hq]⟩
  · exact .inr ⟨c, rest, hq, by rw [State.getc, s.readChar_cons hq]⟩

/-- IN, its prompt being out, is held with no input, and otherwise echoes the head of the queue and takes it into R0
(R105). -/
theorem State.inChar_cases :
    (s.inq = [] ∧ s.inChar = { s with routine := some .inChar }) ∨
    (∃ c rest, s.inq = c :: rest ∧
      s.inChar = ({ s with inq := rest, routine := none }.emit [c]).setRegCC 0 (zext c)) := by
  rcases s.inq_cases with hq | ⟨c, rest, hq⟩
  · exact .inl ⟨hq, by rw [State.inChar, s.readChar_nil hq]⟩
  · exact .inr ⟨c, rest, hq, by rw [State.inChar, s.readChar_cons hq]⟩

/-- What GETC changes of no register but R0, and of no cell, record or output byte. -/
theorem State.getc_keeps :
    (∀ r, r ≠ 0 → s.getc.reg r = s.reg r) ∧ s.getc.pc = s.pc ∧ s.getc.mem = s.mem ∧ s.getc.run = s.run ∧
    s.getc.diag = s.diag ∧ s.getc.out = s.out := by
  rcases s.getc_cases with ⟨-, h⟩ | ⟨c, rest, -, h⟩ <;> rw [h]
  · exact ⟨fun _ _ => rfl, rfl, rfl, rfl, rfl, rfl⟩
  · exact ⟨fun r hr => (State.reg_setRegCC _ _ _ _).trans (if_neg hr), rfl, rfl, rfl, rfl, rfl⟩

/-- What IN changes of no register but R0, and of no cell or record; it only adds to the output. -/
theorem State.inChar_keeps :
    (∀ r, r ≠ 0 → s.inChar.reg r = s.reg r) ∧ s.inChar.pc = s.pc ∧ s.inChar.mem = s.mem ∧ s.inChar.run = s.run ∧
    s.inChar.diag = s.diag ∧ s.out <+: s.inChar.out := by
  rcases s.inChar_cases with ⟨-, h⟩ | ⟨c, rest, -, h⟩ <;> rw [h]
  · exact ⟨fun _ _ => rfl, rfl, rfl, rfl, rfl, List.prefix_refl _⟩
  · exact ⟨fun r hr => (State.reg_setRegCC _ _ _ _).trans (if_neg hr), rfl, rfl, rfl, rfl, List.prefix_append _ _⟩

@[simp] theorem State.getc_params : s.getc.params = s.params := by
  rcases s.getc_cases with ⟨-, h⟩ | ⟨c, rest, -, h⟩ <;> simp [h]

@[simp] theorem State.inChar_params : s.inChar.params = s.params := by
  rcases s.inChar_cases with ⟨-, h⟩ | ⟨c, rest, -, h⟩ <;> simp [h]

section Print

variable (word : Word → List Byte × Bool) (hold : Word → Routine)

/-- The induction of PUTS and PUTSP, packaged once: what reads, emissions and the routine field keep, the loop keeps. -/
theorem State.printWords_induct {P : State → Prop} (hread : ∀ u a, P u → P (u.memRead a).2)
    (hemit : ∀ u bs, P u → P (State.emit u bs)) (hroutine : ∀ u r, P u → P { u with routine := r })
    (n : Nat) (a : Word) (h : P s) : P (State.printWords word hold n a s) := by
  induction n generalizing a s with
  | zero => exact hroutine _ _ h
  | succ n ih =>
    rw [State.printWords]
    split
    · exact ih _ _ (hemit _ _ (hread _ _ h))
    · exact hroutine _ _ (hemit _ _ (hread _ _ h))

/-- What the loop changes of no register, flag, cell or record (R110). -/
theorem State.printWords_keeps (n : Nat) (a : Word) :
    (State.printWords word hold n a s).regs = s.regs ∧ (State.printWords word hold n a s).pc = s.pc ∧
    (State.printWords word hold n a s).cond = s.cond ∧ (State.printWords word hold n a s).mem = s.mem ∧
    (State.printWords word hold n a s).run = s.run ∧ (State.printWords word hold n a s).diag = s.diag := by
  refine State.printWords_induct s word hold
    (P := fun t => t.regs = s.regs ∧ t.pc = s.pc ∧ t.cond = s.cond ∧ t.mem = s.mem ∧ t.run = s.run ∧ t.diag = s.diag)
    ?_ ?_ ?_ n a ⟨rfl, rfl, rfl, rfl, rfl, rfl⟩ <;> intro u _ h
  · simpa using h
  · exact h
  · exact h

@[simp] theorem State.printWords_params (n : Nat) (a : Word) :
    (State.printWords word hold n a s).params = s.params := by
  refine State.printWords_induct s word hold (P := fun t => t.params = s.params) ?_ ?_ ?_ n a rfl <;> intro u _ h
  · simpa using h
  · exact h
  · exact h

@[simp] theorem State.print_params (a : Word) : (s.print word hold a).params = s.params :=
  s.printWords_params word hold _ a

/-- The loop only adds to the output, and takes input from the head only. -/
theorem State.printWords_streams (n : Nat) (a : Word) :
    s.out <+: (State.printWords word hold n a s).out ∧ (State.printWords word hold n a s).inq <:+ s.inq := by
  refine State.printWords_induct s word hold (P := fun t => s.out <+: t.out ∧ t.inq <:+ s.inq)
    ?_ ?_ ?_ n a ⟨List.prefix_refl _, List.suffix_refl _⟩ <;> intro u _ h
  · exact ⟨by simpa using h.1, (u.memRead_inq _).trans h.2⟩
  · exact ⟨h.1.trans (List.prefix_append _ _), h.2⟩
  · exact h

/-- The loop has ended, or stands before the word `n` addresses on. -/
theorem State.printWords_routine (n : Nat) (a : Word) :
    (State.printWords word hold n a s).routine = none ∨
    (State.printWords word hold n a s).routine = some (hold (a + BitVec.ofNat 16 n)) := by
  induction n generalizing a s with
  | zero => exact .inr (by simp [State.printWords])
  | succ n ih =>
    rw [State.printWords]
    split
    · have h := ih ((s.memRead a).2.emit (word (s.memRead a).1).1) (a + 1)
      have e : a + 1 + BitVec.ofNat 16 n = a + BitVec.ofNat 16 (n + 1) := by
        rw [BitVec.add_assoc, BitVec.add_comm 1, BitVec.ofNat_add]; rfl
      rwa [e] at h
    · exact .inl rfl

theorem wordsToKbsr_reaches (kbsr a : Word) : a + BitVec.ofNat 16 (wordsToKbsr kbsr a) = kbsr := by
  have hk := kbsr.isLt
  have h1 : (1 : Word).toNat = 1 := rfl
  have ha := a.isLt
  apply BitVec.eq_of_toNat_eq
  simp only [wordsToKbsr, BitVec.toNat_add, BitVec.toNat_ofNat, BitVec.toNat_sub, h1]
  omega

/-- Within one step PUTS and PUTSP end, or come to a poll of KBSR and stand before it (log 11). -/
theorem State.print_routine (a : Word) :
    (s.print word hold a).routine = none ∨ (s.print word hold a).routine = some (hold s.params.kbsrAddr) := by
  have h := s.printWords_routine word hold (wordsToKbsr s.params.kbsrAddr a) a
  rwa [wordsToKbsr_reaches] at h

/-! ### What the loop prints -/

/-- Words that read the same: `WordsAt` depends on the array, KBDR's held word and the parameters only. -/
theorem wordsAt_congr {s u : State} (hm : u.mem = s.mem) (hk : u.kbdr = s.kbdr) (hp : u.params = s.params) {a : Word}
    {ws : List Word} (h : WordsAt s a ws) : WordsAt u a ws := by
  induction ws generalizing a with
  | nil => trivial
  | cons w ws ih =>
    refine ⟨hp ▸ h.1, ?_, ih h.2.2⟩
    have hr := h.2.1
    rw [State.memRead, if_neg h.1] at hr
    rw [State.memRead, hp, if_neg h.1, hk, State.peek, hm]
    split at hr <;> simp_all [State.peek]

theorem wordsAt_emit {s : State} {a : Word} {ws : List Word} (bs : List Byte) (h : WordsAt s a ws) :
    WordsAt (s.emit bs) a ws := wordsAt_congr (s := s) (u := s.emit bs) rfl rfl rfl h

theorem wordsAt_append {s : State} {a : Word} {ws us : List Word} :
    WordsAt s a (ws ++ us) ↔ WordsAt s a ws ∧ WordsAt s (a + BitVec.ofNat 16 ws.length) us := by
  induction ws generalizing a with
  | nil => simp [WordsAt]
  | cons w ws ih =>
    have e : a + 1 + BitVec.ofNat 16 ws.length = a + BitVec.ofNat 16 (ws.length + 1) := by
      rw [BitVec.add_assoc, BitVec.add_comm 1, BitVec.ofNat_add]
      rfl
    simp only [List.cons_append, WordsAt, ih, List.length_cons, e, and_assoc]

/-- Words that all go on are printed one after the other. -/
theorem State.printWords_run (n : Nat) {a : Word} {ws : List Word} (h : WordsAt s a ws)
    (hgo : ∀ v ∈ ws, (word v).2 = true) :
    State.printWords word hold (n + ws.length) a s =
      State.printWords word hold n (a + BitVec.ofNat 16 ws.length) (s.emit (ws.flatMap fun v => (word v).1)) := by
  induction ws generalizing a s with
  | nil => simp [State.emit]
  | cons w ws ih =>
    have hw : s.memRead a = (w, s) := Prod.ext h.2.1 (s.memRead_state h.1)
    have e : a + 1 + BitVec.ofNat 16 ws.length = a + BitVec.ofNat 16 (ws.length + 1) := by
      rw [BitVec.add_assoc, BitVec.add_comm 1, BitVec.ofNat_add]
      rfl
    rw [List.length_cons, ← Nat.add_assoc, State.printWords, hw, if_pos (hgo w (by simp)),
      ih (s.emit (word w).1) (wordsAt_emit _ h.2.2) (fun v hv => hgo v (by simp [hv])), e]
    simp [State.emit]

/-- Words before KBSR_ADDR are fewer than the loop reads in one step. -/
theorem wordsAt_length_le {s : State} {a : Word} {ws : List Word} (h : WordsAt s a ws) :
    ws.length ≤ wordsToKbsr s.params.kbsrAddr a := by
  by_contra hc
  have hlt : wordsToKbsr s.params.kbsrAddr a < ws.length := by omega
  rw [← List.take_append_drop (wordsToKbsr s.params.kbsrAddr a) ws, wordsAt_append, List.length_take,
    Nat.min_eq_left hlt.le, wordsToKbsr_reaches] at h
  cases hd : ws.drop (wordsToKbsr s.params.kbsrAddr a) with
  | nil => simp at hd; omega
  | cons w us => rw [hd] at h; exact h.2.1 rfl

/-- A string that ends before KBSR_ADDR is printed in one step, and the routine ends. -/
theorem State.print_ends {a last : Word} {ws : List Word} (h : WordsAt s a (ws ++ [last]))
    (hgo : ∀ v ∈ ws, (word v).2 = true) (hend : (word last).2 = false) :
    s.print word hold a =
      { s with out := s.out ++ (ws.flatMap fun v => (word v).1) ++ (word last).1, routine := none } := by
  have hl := wordsAt_length_le h
  rw [List.length_append, List.length_singleton] at hl
  obtain ⟨hws, hlast⟩ := wordsAt_append.mp h
  obtain ⟨n, hn⟩ : ∃ n, wordsToKbsr s.params.kbsrAddr a = n + 1 + ws.length :=
    ⟨wordsToKbsr s.params.kbsrAddr a - 1 - ws.length, by omega⟩
  have hr : (s.emit (ws.flatMap fun v => (word v).1)).memRead (a + BitVec.ofNat 16 ws.length) =
      (last, s.emit (ws.flatMap fun v => (word v).1)) :=
    Prod.ext (wordsAt_emit _ hlast).2.1 (State.memRead_state _ hlast.1)
  rw [State.print, hn, State.printWords_run s word hold _ hws hgo, State.printWords, hr, hend]
  simp [State.emit]

/-- A string that comes to KBSR_ADDR after `ws` words, the first of them not at KBSR_ADDR, stands there. -/
theorem State.print_stands {a : Word} {ws : List Word} (h : WordsAt s a ws) (hgo : ∀ v ∈ ws, (word v).2 = true)
    (hk : ws.length = wordsToKbsr s.params.kbsrAddr a) :
    s.print word hold a =
      { s with out := s.out ++ ws.flatMap fun v => (word v).1, routine := some (hold s.params.kbsrAddr) } := by
  have hr := State.printWords_run s word hold 0 h hgo
  rw [Nat.zero_add, State.printWords] at hr
  rw [State.print, ← hk, hr, hk, wordsToKbsr_reaches]
  rfl

/-- From KBSR_ADDR on, the loop polls first. What follows is the loop from the next address on, which comes back to KBSR_ADDR
after 65,535 words. -/
theorem State.print_kbsr :
    s.print word hold s.params.kbsrAddr =
      if (word (s.memRead s.params.kbsrAddr).1).2 then
        ((s.memRead s.params.kbsrAddr).2.emit (word (s.memRead s.params.kbsrAddr).1).1).print word hold
          (s.params.kbsrAddr + 1)
      else { (s.memRead s.params.kbsrAddr).2.emit (word (s.memRead s.params.kbsrAddr).1).1 with routine := none } := by
  have h1 : wordsToKbsr s.params.kbsrAddr s.params.kbsrAddr = 65535 + 1 := by unfold wordsToKbsr; bv_omega
  have h2 : wordsToKbsr s.params.kbsrAddr (s.params.kbsrAddr + 1) = 65535 := by unfold wordsToKbsr; bv_omega
  rw [State.print, h1, State.printWords, State.print, State.emit_params, State.memRead_params, h2]

end Print

end Sys2Proof.Machine
end

