-- ==== Sys2Proof/Tests/Slice0.lean ====
section
/-! SUPPORT. The model's own tests. Expected results are those of 95_test_vectors.md (the vector's number stands with each
test) or of the rule named; the second part gives each obligation with hypotheses a state that meets them. -/

namespace Sys2Proof.Tests

open Sys2Proof Sys2Proof.Machine

/-- The vectors' start state: reset, with words in memory, registers and PC set. -/
def bench (pc : Word) (mem : Memory) (regs : List (RegNum × Word)) : State :=
  regs.foldl (fun s r => s.setReg r.1 r.2) { State.reset with pc := pc, mem := mem }

/-- What a step leaves, as `f` reads it. -/
def after {α : Type} (s : State) (f : State → α) : Option α :=
  match step s with
  | .next t => some (f t)
  | .fault _ => none
  | .refused _ => none

/-- The register `r`, COND and PC. -/
def look (r : RegNum) (t : State) : Word × Word × Word := (t.reg r, t.cond, t.pc)

/-! ## Well-formedness: R61 refuses nothing; the canonical ignored bits (D24) -/

theorem test_wf_accepts_any_ignored_bits : (Instr.addReg 0 1 0b11#2 2).wf = true := by decide
theorem test_canonical_accepts_ret : (Instr.jmp 0 7 0).canonical = true := by decide
theorem test_canonical_refuses_add_bits : (Instr.addReg 0 1 0b11#2 2).canonical = false := by decide
theorem test_canonical_refuses_and_bits : (Instr.andReg 0 1 0b01#2 2).canonical = false := by decide
theorem test_canonical_refuses_not_zeros : (Instr.notReg 1 2 0).canonical = false := by decide
theorem test_canonical_refuses_jmp_high_bits : (Instr.jmp 0b111#3 2 0).canonical = false := by decide
theorem test_canonical_refuses_jmp_low_bits : (Instr.jmp 0 2 0b111111#6).canonical = false := by decide
theorem test_canonical_refuses_jsrr_high_bits : (Instr.jsrr 0b10#2 2 0).canonical = false := by decide
theorem test_canonical_refuses_jsrr_low_bits : (Instr.jsrr 0 2 1).canonical = false := by decide
theorem test_canonical_refuses_trap_bits : (Instr.trap 0xF#4 0x25#8).canonical = false := by decide
theorem test_canonical_refuses_rti_bits : (Instr.rti 0xFFF#12).canonical = false := by decide
theorem test_canonical_refuses_res_bits : (Instr.res 0xABC#12).canonical = false := by decide

/-! ## Decoding: one word per constructor, bit by bit from the formats of R60 -/

theorem test_decode_addReg : decode 0b0001_101_110_0_10_011#16 = .addReg 5 6 0b10#2 3 := by decide
theorem test_decode_addImm : decode 0b0001_001_001_1_11110#16 = .addImm 1 1 0b11110#5 := by decide
theorem test_decode_andReg : decode 0b0101_000_001_0_01_100#16 = .andReg 0 1 0b01#2 4 := by decide
theorem test_decode_andImm : decode 0b0101_011_010_1_10001#16 = .andImm 3 2 0b10001#5 := by decide
theorem test_decode_notReg : decode 0b1001_101_100_110101#16 = .notReg 5 4 0b110101#6 := by decide
theorem test_decode_ld : decode 0b0010_011_100001000#16 = .ld 3 0b100001000#9 := by decide
theorem test_decode_ldi : decode 0b1010_100_000000111#16 = .ldi 4 7 := by decide
theorem test_decode_ldr : decode 0b0110_010_001_100001#16 = .ldr 2 1 0b100001#6 := by decide
theorem test_decode_lea : decode 0b1110_001_000001001#16 = .lea 1 9 := by decide
theorem test_decode_st : decode 0b0011_010_000000110#16 = .st 2 6 := by decide
theorem test_decode_sti : decode 0b1011_101_000000110#16 = .sti 5 6 := by decide
theorem test_decode_str : decode 0b0111_100_001_000010#16 = .str 4 1 2 := by decide
theorem test_decode_br : decode 0b0000_110_011111111#16 = .br 0b110#3 0b011111111#9 := by decide
theorem test_decode_jmp : decode 0b1100_111_010_111110#16 = .jmp 0b111#3 2 0b111110#6 := by decide
theorem test_decode_jsr : decode 0b0100_1_10000000000#16 = .jsr 0b10000000000#11 := by decide
theorem test_decode_jsrr : decode 0b0100_0_10_011_000001#16 = .jsrr 0b10#2 3 1 := by decide
theorem test_decode_trap : decode 0b1111_1010_00100011#16 = .trap 0b1010#4 0x23#8 := by decide
theorem test_decode_rti : decode 0b1000_000000000001#16 = .rti 1 := by decide
theorem test_decode_res : decode 0b1101_101010111100#16 = .res 0xABC#12 := by decide
theorem test_decodeTableWord : decodeTableWord 16 0xC1C0 = some (.jmp 0 7 0) := by decide
theorem test_withFetchWord : after (State.reset.withFetchWord 16 0xE209) (look 1) = some (0x300A, 0x0001, 0x3001) := by decide

/-! ## ALU (95_test_vectors.md 2.1) -/

theorem test_addReg_A1 : after (bench 0x3000 [(0x3000, 0x1042)] [(1, 0x7FFF), (2, 0x0001)]) (look 0)
    = some (0x8000, 0x0004, 0x3001) := by decide
theorem test_addReg_A4 : after (bench 0x3000 [(0x3000, 0x16C3)] [(3, 0x4001)]) (look 3)
    = some (0x8002, 0x0004, 0x3001) := by decide
theorem test_addImm_A6 : after (bench 0x3000 [(0x3000, 0x14B0)] [(2, 0x0010)]) (look 2)
    = some (0x0000, 0x0002, 0x3001) := by decide
theorem test_andReg_A9 : after (bench 0x3000 [(0x3000, 0x5042)] [(1, 0xFF00), (2, 0x0FF0)]) (look 0)
    = some (0x0F00, 0x0001, 0x3001) := by decide
theorem test_andImm_A11 : after (bench 0x3000 [(0x3000, 0x52BE)] [(2, 0x8001)]) (look 1)
    = some (0x8000, 0x0004, 0x3001) := by decide
theorem test_notReg_A16 : after (bench 0x3000 [(0x3000, 0x9280)] [(2, 0x1234)]) (look 1)
    = some (0xEDCB, 0x0004, 0x3001) := by decide

/-! ## Loads and stores (2.2) -/

theorem test_ld_L2 : after (bench 0x3000 [(0x3000, 0x23FF)] []) (look 1) = some (0x23FF, 0x0001, 0x3001) := by decide
theorem test_ld_L3 : after (bench 0x0000 [(0x0000, 0x25FE), (0xFFFF, 0x1234)] []) (look 2)
    = some (0x1234, 0x0001, 0x0001) := by decide
theorem test_ldi_L4 : after { bench 0x3000 [(0x3000, 0xA001), (0x3002, 0xFE00)] [] with inq := [0x61] }
    (fun t => (look 0 t, t.kbsr, t.kbdr, t.inq)) = some ((0x8000, 0x0004, 0x3001), 0x8000, 0x0061, []) := by decide
theorem test_ldi_L6 : after { bench 0x3000 [(0x3000, 0xA001), (0x3002, 0xFE02)] [] with kbdr := 0x0061 }
    (fun t => (look 0 t, t.kbdr)) = some ((0x0061, 0x0001, 0x3001), 0x0061) := by decide
theorem test_ldr_L7 : after (bench 0x3000 [(0x3000, 0x66FF)] [(3, 0x4001)]) (look 3)
    = some (0x0000, 0x0002, 0x3001) := by decide
theorem test_ldr_L8 : after (bench 0x3000 [(0x0000, 0x7777), (0x3000, 0x6281)] [(2, 0xFFFF)]) (look 1)
    = some (0x7777, 0x0001, 0x3001) := by decide
theorem test_lea_L12 : after (bench 0x7F00 [(0x7F00, 0xEAFF)] []) (look 5) = some (0x8000, 0x0004, 0x7F01) := by decide
theorem test_st_L13 : after (bench 0x3000 [(0x3000, 0x3200)] [(1, 0x1042)]) (fun t => (t.peek 0x3001, t.cond))
    = some (0x1042, 0x0002) := by decide
theorem test_st_L14 : after { bench 0xFF01 [(0xFF01, 0x3300)] [(1, 0x00AA)] with kbdr := 0x0061 }
    (fun t => (t.mem, t.kbdr)) = some ([(0xFF01, 0x3300)], 0x0061) := by decide
theorem test_sti_L15 : after (bench 0x3000 [(0x3000, 0xB401), (0x3002, 0x5000)] [(2, 0xCAFE)]) (fun t => t.peek 0x5000)
    = some 0xCAFE := by decide
theorem test_sti_L16 : after (bench 0x3000 [(0x3000, 0xB401), (0x3002, 0xFE00)] [(2, 0xCAFE)]) (fun t => (t.mem, t.kbsr))
    = some ([(0x3000, 0xB401), (0x3002, 0xFE00)], 0x0000) := by decide
theorem test_str_L17 : after (bench 0x3000 [(0x3000, 0x7900)] [(4, 0x6000)]) (fun t => t.peek 0x6000)
    = some 0x6000 := by decide
/-- R28: writing the reset word unlists the address, so equal memories are equal data. -/
theorem test_str_zero_unlists : after (bench 0x3000 [(0x3000, 0x7240), (0x6000, 0x0001)] [(1, 0x6000)])
    (fun t => t.poke 0x6000 0x0000 |>.mem) = some [(0x3000, 0x7240)] := by decide

/-! ## Control transfer (2.3) -/

theorem test_br_B6 : after (bench 0x3000 [(0x3000, 0x06FF)] []) (fun t => t.pc) = some 0x3100 := by decide
theorem test_br_B7 : after (bench 0x3000 [(0x3000, 0x0A05)] []) (fun t => t.pc) = some 0x3001 := by decide
theorem test_jmp_J3 : after (bench 0x3000 [(0x3000, 0xCEBF)] [(2, 0x1234)]) (fun t => t.pc) = some 0x1234 := by decide
theorem test_jsr_S1 : after (bench 0x3000 [(0x3000, 0x4C00)] []) (fun t => (t.pc, t.reg 7)) = some (0x2C01, 0x3001) := by
  decide
theorem test_jsr_S4 : after (bench 0xFFFF [(0xFFFF, 0x4801)] []) (fun t => (t.pc, t.reg 7)) = some (0x0001, 0x0000) := by
  decide
theorem test_jsrr_S5 : after { bench 0x3000 [(0x3000, 0x40C0)] [(3, 0x5000)] with cond := 0x0004 } (look 7)
    = some (0x3001, 0x0004, 0x5000) := by decide
/-- R98 with JSRR_BASE_BEFORE_LINK true: the textbook order. -/
theorem test_jsrr_base_before_link :
    after ((bench 0x3000 [(0x3000, 0x41C0)] [(7, 0x4000)]).configure ⟨0xFE00, 0xFE02, true⟩) (look 7)
    = some (0x3001, 0x0002, 0x4000) := by decide
/-- 90_conflicts.md C10: the keyboard registers at another pair of addresses. -/
theorem test_ldi_other_kbsr : after { (bench 0x3000 [(0x3000, 0xA001), (0x3002, 0xFFFE)] []).configure ⟨0xFFFE, 0xFFFF, false⟩ with
    inq := [0x61] } (fun t => (look 0 t, t.kbdr, t.inq)) = some ((0x8000, 0x0004, 0x3001), 0x0061, []) := by decide
theorem test_jsrr_S6 : after (bench 0x3000 [(0x3000, 0x41C0)] [(7, 0x4000)]) (look 7)
    = some (0x3001, 0x0002, 0x3001) := by decide

/-! ## TRAP (2.4): two tests for each routine at most -/

theorem test_getc_T3 : after { bench 0x3000 [(0x3000, 0xF020)] [] with inq := [0xFF] }
    (fun t => (look 0 t, t.reg 7, t.inq, t.out)) = some ((0x00FF, 0x0001, 0x3001), 0x3001, [], []) := by decide
/-- T4: the step stands inside the GETC, and has no further step until a byte comes. -/
theorem test_getc_T4 : after (bench 0x3000 [(0x3000, 0xF020)] []) (fun t => (t.routine, after t (look 0),
    after (t.supplyInput 0x41) (look 0))) = some (some .getc, none, some (0x0041, 0x0001, 0x3001)) := by decide
theorem test_out_T5 : after (bench 0x3000 [(0x3000, 0xF021)] [(0, 0x1241)]) (fun t => (t.out, look 0 t))
    = some ([0x41], 0x1241, 0x0002, 0x3001) := by decide
theorem test_puts_T7 : after (bench 0x3000 [(0x3000, 0xF022), (0x4000, 0x0100), (0x4001, 0x0041)] [(0, 0x4000)])
    (fun t => (t.out, look 0 t, t.routine)) = some ([0x00, 0x41], (0x4000, 0x0002, 0x3001), none) := by decide
theorem test_puts_T9 : after (bench 0x3000 [(0x3000, 0xF022), (0xFFFF, 0x0058)] [(0, 0xFFFF)]) (fun t => t.out)
    = some [0x58] := by decide
/-- T19 in small: the string runs up to KBSR_ADDR, stands there, and the poll that finds no key ends it. -/
theorem test_puts_T19 : after (bench 0x3000 [(0x3000, 0xF022), (0xFDFF, 0x0041)] [(0, 0xFDFF)])
    (fun t => (t.out, t.routine)) = some ([0x41], some (.puts 0xFE00)) := by decide
/-- T10, for the prompt as it is: the echo is the last byte. -/
theorem test_in_T10 : after { bench 0x3000 [(0x3000, 0xF023)] [] with inq := [0x7A] }
    (fun t => (t.inq, look 0 t, t.reg 7)) = some ([], (0x007A, 0x0001, 0x3001), 0x3001) := by decide
theorem test_putsp_T11 : after (bench 0x3000 [(0x3000, 0xF024), (0x4000, 0x4241), (0x4001, 0x0043), (0x4002, 0x0044)]
    [(0, 0x4000)]) (fun t => t.out) = some [0x41, 0x42, 0x43] := by decide
theorem test_putsp_T12 : after (bench 0x3000 [(0x3000, 0xF024), (0x4000, 0x4100)] [(0, 0x4000)]) (fun t => t.out)
    = some [] := by decide
theorem test_halt_T15 : after (bench 0x3000 [(0x3000, 0xFF25), (0x3001, 0x1021)] []) (fun t => (t.run, look 7 t, t.out))
    = some (.halted, (0x3001, 0x0002, 0x3001), []) := by decide
theorem test_halted_has_no_step : step { bench 0x3001 [(0x3001, 0x1021)] [] with run := .halted } = .fault .halted := rfl
theorem test_trap_T16 : after { bench 0x3000 [(0x3000, 0xF026)] [(7, 0x1111)] with cond := 0x0004 }
    (fun t => (look 7 t, t.diag)) = some ((0x3001, 0x0004, 0x3001), [⟨.invalidTrapVector, 0x3000, 0xF026, some 0x26⟩]) := by
  decide
theorem test_trap_T18 : after (bench 0x3000 [(0x3000, 0xF0FF)] []) (fun t => t.diag)
    = some [⟨.invalidTrapVector, 0x3000, 0xF0FF, some 0xFF⟩] := by decide

/-! ## Reserved opcodes and the keyboard registers as instruction words (2.5, 2.6) -/

theorem test_rti_X2 : after (bench 0x4000 [(0x4000, 0x8FFF)] []) (fun t => (t.pc, t.diag))
    = some (0x4001, [⟨.invalidOpcode, 0x4000, 0x8FFF, none⟩]) := by decide
theorem test_res_X4 : after (bench 0x3000 [(0x3000, 0xDABC)] [(0, 0x0007)]) (fun t => (look 0 t, t.diag))
    = some ((0x0007, 0x0002, 0x3001), [⟨.invalidOpcode, 0x3000, 0xDABC, none⟩]) := by decide
theorem test_fetch_K1 : after { bench 0xFE00 [] [] with inq := [0x61] } (fun t => (t.pc, t.kbsr, t.kbdr, t.inq, t.diag))
    = some (0xFE01, 0x8000, 0x0061, [], [⟨.invalidOpcode, 0xFE00, 0x8000, none⟩]) := by decide
theorem test_fetch_K3 : after { bench 0xFE02 [] [] with kbdr := 0x0061 } (fun t => (t.pc, t.diag)) = some (0xFE03, []) := by
  decide

/-! ## Witnesses: each obligation's hypotheses are met together -/

/-- A state with `w` at PC 0x3000, about to fetch. -/
def at3000 (w : Word) : State := bench 0x3000 [(0x3000, w)] []

/-- A state whose invariant holds, one word loaded. -/
theorem at3000_inv (w : Word) (h : w ≠ 0x0000#16) : (at3000 w).Inv where
  mem := by simp [at3000, bench, Memory.wf, Memory.wfFrom, h]
  cond := .inr (.inl rfl)
  kbsr := .inr rfl
  kbdr := (by decide : highByte 0x0000#16 = 0x00#8)
  diag := by simp [at3000, bench, State.reset]
  halted := by simp [at3000, bench, State.reset]
  stands := by simp [at3000, bench, State.reset]
  link := by simp [at3000, bench, State.reset]
  params := (by decide : Config.kbsrAddr ≠ Config.kbdrAddr)

/-- A held IN, with or without input. -/
def heldIn (inq : List Byte) : State := { bench 0x3001 [] [(7, 0x3001)] with routine := some .inChar, inq := inq }

/-- A held GETC. -/
def heldGetc (inq : List Byte) : State := { heldIn inq with routine := some .getc }

/-- PUTS before its poll of KBSR. -/
def standingPuts (inq : List Byte) : State := { heldIn inq with routine := some (.puts 0xFE00) }

/-- PUTSP before its poll of KBSR. -/
def standingPutsp (inq : List Byte) : State := { heldIn inq with routine := some (.putsp 0xFE00) }

/-- R104 from KBSR_ADDR on: 0x00 for 0x8000, the word after it, KBDR's key, then the zero word. -/
theorem test_puts_key_at_kbsr : after { standingPuts [0x61] with mem := [(0xFE01, 0x0042)] } (fun t => (t.out, t.routine, t.inq))
    = some ([0x00, 0x42, 0x61], none, []) := by decide
theorem test_puts_T19_poll : after (standingPuts []) (fun t => (t.out, t.routine, t.pc, t.kbsr))
    = some ([], none, 0x3001, 0x0000) := by decide
theorem witness_StepKeepsTheInvariant : (at3000 0x8000).Inv ∧ ∃ t, step (at3000 0x8000) = .next t :=
  ⟨at3000_inv _ (by decide), _, rfl⟩
theorem witness_ReachableStatesMeetTheInvariant : 
    Reachable ((boot ⟨0xFFFE, 0xFFFF, true⟩ [(0x3000, [0xF020])] 0x3000).supplyInput 0x41) :=
  .move (.boot _ _ _ (by decide)) (.supply _ rfl)
theorem witness_DecodeInvertsEncode : (Instr.res 0xFFF#12).wf = true := by decide
theorem witness_DecodeReadsEveryField_and_AddEncodings :
    0x1FFF#16 &&& 0xF020#16 = 0x1020#16 ∧ 0x1FDF#16 &&& 0xF020#16 = 0x1000#16 ∧ 0x5FDF#16 &&& 0xF020#16 = 0x5000#16 ∧
    0x5FFF#16 &&& 0xF020#16 = 0x5020#16 ∧ 0x9FFF#16 &&& 0xF000#16 = 0x9000#16 ∧ 0x2FFF#16 &&& 0xF000#16 = 0x2000#16 ∧
    0xAFFF#16 &&& 0xF000#16 = 0xA000#16 ∧ 0x6FFF#16 &&& 0xF000#16 = 0x6000#16 ∧ 0xEFFF#16 &&& 0xF000#16 = 0xE000#16 ∧
    0x3FFF#16 &&& 0xF000#16 = 0x3000#16 ∧ 0xBFFF#16 &&& 0xF000#16 = 0xB000#16 ∧ 0x7FFF#16 &&& 0xF000#16 = 0x7000#16 ∧
    0x0FFF#16 &&& 0xF000#16 = 0x0000#16 ∧ 0xCFFF#16 &&& 0xF000#16 = 0xC000#16 ∧ 0x4FFF#16 &&& 0xF800#16 = 0x4800#16 ∧
    0x47FF#16 &&& 0xF800#16 = 0x4000#16 ∧ 0xFFFF#16 &&& 0xF000#16 = 0xF000#16 ∧ 0x8FFF#16 &&& 0xF000#16 = 0x8000#16 ∧
    0xDFFF#16 &&& 0xF000#16 = 0xD000#16 := by decide
theorem witness_IgnoredBitsChangeNothing :
    (opcode 0x1042#16 = 0b0001#4 ∧ (0x1042#16 : Word).getLsbD 5 = false ∧ 0x1042#16 &&& 0xFFE7#16 = 0x105A#16 &&& 0xFFE7#16) ∧
    (opcode 0x5042#16 = 0b0101#4 ∧ (0x5042#16 : Word).getLsbD 5 = false ∧ 0x5042#16 &&& 0xFFE7#16 = 0x505A#16 &&& 0xFFE7#16) ∧
    (opcode 0x9280#16 = 0b1001#4 ∧ 0x9280#16 &&& 0xFFC0#16 = 0x92BF#16 &&& 0xFFC0#16) ∧
    (opcode 0xC080#16 = 0b1100#4 ∧ 0xC080#16 &&& 0xF1C0#16 = 0xCEBF#16 &&& 0xF1C0#16) ∧
    (opcode 0x40C0#16 = 0b0100#4 ∧ (0x40C0#16 : Word).getLsbD 11 = false ∧ 0x40C0#16 &&& 0xF9C0#16 = 0x46FF#16 &&& 0xF9C0#16) ∧
    (opcode 0xF025#16 = 0b1111#4 ∧ validVector ((0xF025#16 : Word).extractLsb' 0 8) = true ∧
      0xF025#16 &&& 0xF0FF#16 = 0xFF25#16 &&& 0xF0FF#16) ∧
    (opcode 0x8000#16 = 0b1000#4 ∧ opcode 0x8FFF#16 = opcode 0x8000#16) ∧
    (opcode 0xD000#16 = 0b1101#4 ∧ opcode 0xDABC#16 = opcode 0xD000#16) ∧
    (opcode 0xF026#16 = 0b1111#4 ∧ validVector ((0xF026#16 : Word).extractLsb' 0 8) = false ∧
      0xF026#16 &&& 0xF0FF#16 = 0xFF26#16 &&& 0xF0FF#16) := by decide
theorem witness_StepRunsTheDecodedInstruction :
    Idle (at3000 0xF022) ∧ decode ((at3000 0xF022).memRead (at3000 0xF022).pc).1 = .trap 0 0x22#8 := ⟨⟨rfl, rfl⟩, by decide⟩
theorem witness_RunningCoreGoesOnUnlessHeld :
    (heldIn []).run = .running ∧ (standingPuts []).run = .running ∧ (at3000 0xF025).run = .running := by decide
theorem witness_FetchAtTheKeyboardRegisters :
    let s := bench 0xFE00 [] []
    let u : State := { bench 0xFE02 [] [] with kbdr := 0x00FF }
    (Idle s ∧ s.pc = s.params.kbsrAddr ∧ s.inq = []) ∧ (Idle (s.supplyInput 0x61) ∧ (s.supplyInput 0x61).inq = 0x61 :: []) ∧
    (Idle u ∧ u.pc = u.params.kbdrAddr ∧ u.params.kbsrAddr ≠ u.params.kbdrAddr ∧ highByte u.kbdr = 0x00#8) := by
  unfold Idle; decide
theorem witness_StreamsOnlyGrow : ∃ t, step (heldIn [0x00]) = .next t := ⟨_, rfl⟩
theorem witness_OnlyHaltHalts : (∃ t, step (at3000 0xF025) = .next t ∧ t.run = .halted) ∧
    ({ State.reset with run := .halted } : State).run = .halted := ⟨⟨_, rfl, rfl⟩, rfl⟩
theorem witness_ExtensionsFollowR12 :
    (1 ≤ 1 ∧ 1 ≤ 16 ∧ (0b1#1).getLsbD (1 - 1) = true) ∧ (1 ≤ 16 ∧ 16 ≤ 16 ∧ (0x8000#16).getLsbD (16 - 1) = true) ∧
    (1 ≤ 5 ∧ 5 ≤ 16 ∧ (0b01111#5).getLsbD (5 - 1) = false) := by decide
theorem witness_LoadFromKbsrPolls :
    let ld := bench 0xFDFF [] []
    let ldr := bench 0x3001 [] [(1, 0xFE1F)]
    let ldi := bench 0x3001 [(0x3002, 0xFE00)] []
    (ld.pcRel (1 : BitVec 9) = ld.params.kbsrAddr ∧ ld.inq = [] ∧ (ld.supplyInput 0x61).inq = 0x61 :: []) ∧
    ldr.baseOff 1 0b100001#6 = ldr.params.kbsrAddr ∧
    (Plain ldi (ldi.pcRel (1 : BitVec 9)) ∧ ldi.peek (ldi.pcRel (1 : BitVec 9)) = ldi.params.kbsrAddr) := by
  unfold Plain; decide
theorem witness_LoadElsewhereHasNoSideEffect :
    let ld := bench 0xFE01 [] []
    let top := bench 0x0001 [] []
    let ldr := bench 0x3001 [] [(1, 0xFE00)]
    let ldi := bench 0x3001 [(0x3002, 0xFE02)] []
    (ld.pcRel (1 : BitVec 9) = ld.params.kbdrAddr ∧ ld.params.kbdrAddr ≠ ld.params.kbsrAddr) ∧
    (top.pcRel (0x1FE#9) = 0xFFFF#16 ∧ 0xFFFF#16 ≠ top.params.kbsrAddr) ∧
    (ldr.baseOff 1 2 = ldr.params.kbdrAddr ∧ ldr.baseOff 1 1 ≠ ldr.params.kbsrAddr) ∧
    (Plain ldi (ldi.pcRel (1 : BitVec 9)) ∧ ldi.peek (ldi.pcRel (1 : BitVec 9)) = ldi.params.kbdrAddr) := by
  unfold Plain; decide
theorem witness_StoresPlainAndDiscarded :
    let st := bench 0xFF02 [] []
    let sti (a : Word) := bench 0x3001 [(0x3002, a)] []
    let str := bench 0x3001 [] [(1, 0xFDFF)]
    Plain st (st.pcRel (0 : BitVec 9)) ∧ ¬ Plain st (st.pcRel (0x100#9)) ∧
    Plain (sti 0x5000) ((sti 0x5000).indirect 1).1 ∧ ¬ Plain (sti 0xFE00) ((sti 0xFE00).indirect 1).1 ∧
    Plain str (str.baseOff 1 0) ∧ ¬ Plain str (str.baseOff 1 1) := by
  unfold Plain; decide
theorem witness_LeaThenLdrReadsWhatLdReads :
    (at3000 0xE204).pcRel (0b100#9) ≠ (at3000 0xE204).params.kbsrAddr := by decide
/-- The first instance of 95_test_vectors.md 1.4. -/
theorem witness_StoreThenLoadReturnsTheValue :
    let s := bench 0x3000 [(0x3000, 0x7283), (0x3001, 0x6683)] [(1, 0x1234), (2, 0x5000)]
    Idle s ∧ Plain s s.pc ∧ Plain s (s.pc + 1) ∧ decode (s.peek s.pc) = .str 1 2 3 ∧
    decode (s.peek (s.pc + 1)) = .ldr 3 2 3 ∧ Plain s (s.baseOff 2 3) ∧ s.baseOff 2 3 ≠ s.pc + 1 := by
  unfold Plain Idle; decide
theorem witness_FetchSeesTheStoreBeforeIt :
    let st := bench 0x3000 [(0x3000, 0x3200)] [(1, 0x1042)]
    let str := bench 0x3000 [(0x3000, 0x7281)] [(1, 0x1042), (2, 0x3000)]
    let sti := bench 0x3000 [(0x3000, 0xB201), (0x3002, 0x3001)] [(1, 0x1042)]
    (Idle st ∧ Plain st st.pc ∧ Plain st (st.pc + 1) ∧ decode (st.peek st.pc) = .st 1 0 ∧
      ({ st with pc := st.pc + 1 } : State).pcRel (0 : BitVec 9) = st.pc + 1) ∧
    (Idle str ∧ decode (str.peek str.pc) = .str 1 2 1 ∧
      ({ str with pc := str.pc + 1 } : State).baseOff 2 1 = str.pc + 1) ∧
    (Idle sti ∧ decode (sti.peek sti.pc) = .sti 1 1 ∧
      (({ sti with pc := sti.pc + 1 } : State).indirect 1).1 = sti.pc + 1) := by
  unfold Plain Idle; decide
theorem witness_BrTakenWhenAMaskedFlagIsSet :
    (((0b010#3).getLsbD 2 && State.reset.cond.getLsbD 2) || ((0b010#3).getLsbD 1 && State.reset.cond.getLsbD 1) ||
      ((0b010#3).getLsbD 0 && State.reset.cond.getLsbD 0)) = true ∧
    (((0b101#3).getLsbD 2 && State.reset.cond.getLsbD 2) || ((0b101#3).getLsbD 1 && State.reset.cond.getLsbD 1) ||
      ((0b101#3).getLsbD 0 && State.reset.cond.getLsbD 0)) = false := by decide
theorem witness_BrMaskEdges : (at3000 0x0E00).Inv := at3000_inv _ (by decide)
theorem witness_R7IsTheLinkRegister :
    (∃ off, Instr.jsr 0x400#11 = .jsr off) ∧ (∃ a b c, Instr.jsrr 0 7 0 = .jsrr a b c) ∧
    (∃ ign vec, Instr.trap 0 0x26#8 = .trap ign vec) := ⟨⟨_, rfl⟩, ⟨_, _, _, rfl⟩, _, _, rfl⟩
theorem witness_GetcReadsOrIsHeld_and_In :
    ({ State.reset with inq := [0x00] } : State).inq = 0x00 :: [] ∧ ({ State.reset with inq := [0x00] } : State).routine = none ∧
    State.reset.inq = [] := by decide
theorem witness_HeldReadEndsWithTheNextKey :
    (heldIn []).run = .running ∧ (heldIn []).routine = some .inChar ∧ (heldIn []).inq = [] ∧
    (heldGetc [0xFF]).run = .running ∧ (heldGetc [0xFF]).routine = some .getc ∧ (heldGetc [0xFF]).inq = 0xFF :: [] := by
  decide
/-- T9's string, over the top of the address space, and the empty string of T8. -/
theorem witness_PutsPrintsUpToTheZeroWord :
    let s := bench 0x3001 [(0xFFFF, 0x0058)] [(0, 0xFFFF)]
    s.routine = none ∧ WordsAt s (s.reg 0) ([0x0058#16] ++ [0x0000#16]) ∧ WordsAt s 0x4000#16 ([] ++ [0x0000#16]) ∧
    (∀ v ∈ [0x0058#16], v ≠ 0x0000#16) := by
  simp only [List.nil_append, List.cons_append, WordsAt, List.forall_mem_singleton]; decide
/-- T11's string: two bytes, then a zero high byte. -/
theorem witness_PutspPrintsUpToTheZeroByte :
    let s := bench 0x3001 [(0x4000, 0x4241), (0x4001, 0x0043)] [(0, 0x4000)]
    s.routine = none ∧ WordsAt s (s.reg 0) ([0x4241#16] ++ [0x0043#16]) ∧
    (∀ v ∈ [0x4241#16], lowByte v ≠ 0x00#8 ∧ highByte v ≠ 0x00#8) ∧
    (lowByte 0x0043#16 = 0x00#8 ∨ highByte 0x0043#16 = 0x00#8) ∧ lowByte 0x4100#16 = 0x00#8 := by
  simp only [List.nil_append, List.cons_append, WordsAt, List.forall_mem_singleton]; decide
theorem witness_StringsStandBeforeKbsr :
    let s := bench 0x3001 [(0xFDFF, 0x4241)] [(0, 0xFDFF)]
    [0x4241#16] ≠ [] ∧ WordsAt s (s.reg 0) [0x4241#16] ∧ s.reg 0 + BitVec.ofNat 16 1 = s.params.kbsrAddr ∧
    (∀ v ∈ [0x4241#16], v ≠ 0x0000#16) ∧ (∀ v ∈ [0x4241#16], lowByte v ≠ 0x00#8 ∧ highByte v ≠ 0x00#8) := by
  simp only [WordsAt, List.forall_mem_singleton]; decide

/-- A state after a poll that took the key 0x01, in memory that holds 0x0001 everywhere. -/
def allOnes : State :=
  { standingPuts [] with mem := (List.range' 0 65536).map (fun a => (a, 0x0001#16)), kbsr := 0x8000, kbdr := 0x0001 }

theorem read_ones (n lo x : Nat) (h : lo ≤ x) (h' : x < lo + n) :
    Memory.read ((List.range' lo n).map (fun a => (a, 0x0001#16))) x = 0x0001#16 := by
  induction n generalizing lo with
  | zero => omega
  | succ n ih =>
    rw [List.range'_succ, List.map_cons, Memory.read]
    split
    · rfl
    · exact ih (lo + 1) (by omega) (by omega)

theorem wordsAt_ones (n : Nat) (a : Word) (h : n ≤ (0xFE00#16 - a).toNat) :
    WordsAt allOnes a (List.replicate n 0x0001#16) := by
  induction n generalizing a with
  | zero => trivial
  | succ n ih =>
    have hne : a ≠ 0xFE00#16 := by rintro rfl; simp at h
    refine ⟨hne, ?_, ih (a + 1) ?_⟩
    · rw [State.memRead, if_neg (show a ≠ allOnes.params.kbsrAddr from hne)]
      split
      · rfl
      · exact read_ones 65536 0 _ (Nat.zero_le _) (by have := a.isLt; omega)
    · bv_omega

/-- The longest string after KBSR_ADDR: one with no zero word in the whole address space. -/
theorem witness_StringsPollKbsr_whole_space :
    WordsAt allOnes (allOnes.params.kbsrAddr + 1) (List.replicate 65535 0x0001#16) ∧
    (List.replicate 65535 0x0001#16).length = 65535 ∧ (∀ v ∈ List.replicate 65535 0x0001#16, v ≠ 0x0000#16) :=
  ⟨wordsAt_ones 65535 0xFE01#16 (by decide), List.length_replicate,
    fun v h => by rw [List.eq_of_mem_replicate h]; decide⟩

theorem witness_StringsPollKbsr :
    let s := bench 0x3001 [] [(0, 0xFE00)]
    let u : State := { standingPuts [] with mem := [(0xFE01, 0x0042)], kbsr := 0x8000, kbdr := 0x0061 }
    (s.reg 0 = s.params.kbsrAddr ∧ s.inq = [] ∧ (s.supplyInput 0x61).inq = 0x61 :: []) ∧
    ((standingPuts []).run = .running ∧ (standingPuts []).routine = some (.puts (standingPuts []).params.kbsrAddr)) ∧
    ((standingPutsp []).run = .running ∧ (standingPutsp []).routine = some (.putsp (standingPutsp []).params.kbsrAddr)) ∧
    (WordsAt u (u.params.kbsrAddr + 1) ([0x0042#16, 0x0061#16] ++ [0x0000#16]) ∧ ∀ v ∈ [0x0042#16, 0x0061#16], v ≠ 0x0000#16) := by
  simp only [List.nil_append, List.cons_append, WordsAt, List.forall_mem_singleton, List.forall_mem_cons]; decide
theorem witness_InvalidVectorIsRecorded :
    (0x00#8).toNat < 0x20 ∧ (0x1F#8).toNat < 0x20 ∧ 0x25 < (0x26#8).toNat ∧ 0x25 < (0xFF#8).toNat := by decide
theorem witness_TrapsKeepR1ToR6AndMemory : (standingPuts []).routine ≠ none ∧ ∃ t, step (standingPuts []) = .next t :=
  ⟨by decide, _, rfl⟩
theorem witness_TrapReturnIsImplicit :
    Idle (at3000 0xF021) ∧ (0x21#8 : BitVec 8) ≠ 0x25#8 ∧
    (∃ t, exec (.trap 0 0x21#8) (at3000 0xF021) = .next t ∧ t.routine = none) ∧
    ((standingPuts []).routine ≠ none ∧ ∃ t, step (standingPuts []) = .next t ∧ t.routine = none) :=
  ⟨⟨rfl, rfl⟩, by decide, ⟨_, rfl, rfl⟩, by decide, _, rfl, rfl⟩
theorem witness_RtiAndRes_and_AnomalyIsNoTrap :
    Idle (at3000 0x8000) ∧ (∃ ign, Instr.rti 0 = .rti ign) ∧ (∃ ign, Instr.res 0 = .res ign) ∧
    (∃ ign vec, Instr.trap 0 0x26#8 = .trap ign vec ∧ validVector vec = false) :=
  ⟨⟨rfl, rfl⟩, ⟨_, rfl⟩, ⟨_, rfl⟩, _, _, rfl, by decide⟩
theorem witness_OnlyFlagSettersWriteCond :
    (∃ t, exec (.jsr 0) (at3000 0x4800) = .next t ∧ setsFlags (.jsr 0) = false) ∧
    ((standingPuts []).routine = some (.puts 0xFE00) ∧ ∃ t, step (standingPuts []) = .next t) :=
  ⟨⟨_, rfl, rfl⟩, rfl, _, rfl⟩
theorem witness_OnlyNamedRegistersAreWritten : ∃ t, exec (.trap 0 0x20#8) (at3000 0xF020) = .next t := ⟨_, rfl⟩
theorem witness_OnlyStoresWriteMemory :
    ∃ t, exec (.ld 1 0) (at3000 0x2200) = .next t ∧ storesMem (.ld 1 0) = false := ⟨_, rfl, rfl⟩
theorem witness_ImagesLoadInOrder :
    (0xFFFF#16 : Word).toNat + [0x1234#16].length ≤ 65536 ∧
    (∀ im ∈ [((0xFFFF#16 : Word), [0x1234#16])], im.1.toNat + im.2.length ≤ 65536 ∧
      im.2.length ≤ ((0x0000#16 : Word) - im.1).toNat) := by
  decide

end Sys2Proof.Tests
end

section
/-! Sign and zero extension (00_scope.md R12): the bits of each, and the value of `sext` by the sign bit. -/

namespace Sys2Proof.Machine

/-- Bit `k` of a sign extension: the field's own bit below its width, its sign bit from there on. -/
theorem sext_getLsbD {n : Nat} (f : BitVec n) {k : Nat} (hk : k < 16) :
    (sext f).getLsbD k = f.getLsbD (if k < n then k else n - 1) := by
  unfold sext
  rw [BitVec.getLsbD_signExtend, BitVec.msb_eq_getLsbD_last]
  split <;> simp [hk]

/-- A field whose sign bit is 0 keeps its value under sign extension. -/
theorem sext_toNat_of_signBit_false {n : Nat} {f : BitVec n} (hn : n ≤ 16)
    (hs : f.getLsbD (n - 1) = false) : (sext f).toNat = f.toNat := by
  rw [← BitVec.msb_eq_getLsbD_last] at hs
  unfold sext
  rw [BitVec.signExtend_eq_setWidth_of_msb_false hs, BitVec.toNat_setWidth_of_le hn]

/-- A field whose sign bit is 1 stands for its value minus `2 ^ n`, modulo `2 ^ 16`. -/
theorem sext_toNat_of_signBit_true {n : Nat} {f : BitVec n} (hn : n ≤ 16)
    (hs : f.getLsbD (n - 1) = true) : (sext f).toNat = f.toNat + 65536 - 2 ^ n := by
  rw [← BitVec.msb_eq_getLsbD_last] at hs
  have hpow : 2 ^ n ≤ 2 ^ 16 := Nat.pow_le_pow_right (by decide) hn
  unfold sext
  rw [BitVec.toNat_signExtend, BitVec.toNat_setWidth_of_le hn, if_pos hs]
  omega

/-- Bit `k` of a zero extension: the field's own bit below its width, 0 from there on. -/
theorem zext_getLsbD {n : Nat} (f : BitVec n) {k : Nat} (hk : k < 16) :
    (zext f).getLsbD k = (decide (k < n) && f.getLsbD k) := by
  unfold zext
  rw [BitVec.getLsbD_setWidth]
  by_cases hkn : k < n
  · simp [hk, hkn]
  · simp [hkn, BitVec.getLsbD_of_ge f k (by omega)]

/-- Settles O17, by the bits of the two extensions and by the sign bit for the value of `sext`. -/
theorem extensionsFollowR12 : Obligations.ExtensionsFollowR12 := by
  unfold Obligations.ExtensionsFollowR12
  intro n f _ hn
  exact ⟨fun _ hk => sext_getLsbD f hk, sext_toNat_of_signBit_false hn,
    sext_toNat_of_signBit_true hn, fun _ hk => zext_getLsbD f hk⟩

end Sys2Proof.Machine
end

section
/-! The run state (10_state.md R24): what the memory port, the trap routines and each instruction do to it. -/

namespace Sys2Proof.Machine

variable (s : State)

/-! ## The shared operations leave the run state -/

@[simp] theorem State.memWrite_run (a v : Word) : (s.memWrite a v).run = s.run := by
  obtain h | h := s.memWrite_cases a v <;> rw [h]
  rfl

@[simp] theorem State.load_run (dr : RegNum) (ea : Word) : (s.load dr ea).run = s.run := by
  simp [State.load]

@[simp] theorem State.indirect_run (off9 : BitVec 9) : (s.indirect off9).2.run = s.run := s.memRead_run _

/-! ## The trap routines -/

@[simp] theorem State.getc_run : s.getc.run = s.run := by
  obtain ⟨-, -, -, hrun, -⟩ := s.getc_keeps
  exact hrun

@[simp] theorem State.inChar_run : s.inChar.run = s.run := by
  obtain ⟨-, -, -, hrun, -⟩ := s.inChar_keeps
  exact hrun

@[simp] theorem State.print_run (word : Word → List Byte × Bool) (hold : Word → Routine) (a : Word) :
    (s.print word hold a).run = s.run := by
  obtain ⟨-, -, -, -, hrun, -⟩ := s.printWords_keeps word hold (wordsToKbsr s.params.kbsrAddr a) a
  exact hrun

/-- Of the routines and the invalid-vector action, only the one for 0x25 touches the run state (43_trap.md R107). -/
theorem dispatchTrap_run (w : Word) {vec : BitVec 8} (hv : vec ≠ 0x25#8) : (dispatchTrap w vec s).run = s.run := by
  unfold dispatchTrap
  split_ifs with hGetc hOut hPuts hIn hPutsp
  · exact s.getc_run
  · rfl
  · exact s.print_run _ _ _
  · exact (s.emit Config.inPrompt).inChar_run
  · exact s.print_run _ _ _
  · rfl

/-- No part of a routine in progress touches the run state: HALT is never in progress (log 10). -/
theorem resume_run {s t : State} {r : Routine} (h : resume r s = .next t) : t.run = s.run := by
  cases r with simp only [resume] at h
  | getc => split at h <;> cases h; exact s.getc_run
  | inChar => split at h <;> cases h; exact s.inChar_run
  | puts a => cases h; exact s.print_run _ _ _
  | putsp a => cases h; exact s.print_run _ _ _

/-! ## Instructions and steps -/

/-- Every instruction answers a next state, with the same run state unless the instruction is TRAP 0x25. -/
theorem exec_next_run (i : Instr) :
    ∃ t, exec i s = .next t ∧ (t.run = s.run ∨ ∃ ign, i = .trap ign 0x25#8) := by
  cases i
  case addReg | addImm | andReg | andImm | notReg => exact ⟨_, rfl, .inl rfl⟩
  case lea | jmp | jsr | jsrr | rti | res => exact ⟨_, rfl, .inl rfl⟩
  case ld | ldr => exact ⟨_, rfl, .inl (s.load_run _ _)⟩
  case ldi | sti => exact ⟨_, rfl, .inl (by simp)⟩
  case st | str => exact ⟨_, rfl, .inl (s.memWrite_run _ _)⟩
  case br => exact ⟨_, rfl, .inl (by split <;> rfl)⟩
  case trap ign vec =>
    by_cases hv : vec = 0x25#8
    · exact ⟨_, rfl, .inr ⟨ign, by rw [hv]⟩⟩
    · exact ⟨_, rfl, .inl (dispatchTrap_run s.trapEntry _ hv)⟩

/-- A step that ends Halted began Running, with no routine in progress, and fetched a TRAP 0x25. -/
theorem step_halts {s t : State} (h : step s = .next t) (ht : t.run = .halted) :
    s.run = .running ∧ s.routine = none ∧ ∃ ign, decode s.fetch.1 = .trap ign 0x25#8 := by
  obtain ⟨hrun, ⟨hidle, hexec⟩ | ⟨r, -, hresume⟩⟩ := step_next_cases h
  · obtain ⟨u, hu, hkeep | hhalt⟩ := exec_next_run s.fetch.2 (decode s.fetch.1)
    · obtain rfl : u = t := Host.Outcome.next.inj (hu.symm.trans hexec)
      simp [ht, hrun] at hkeep
    · exact ⟨hrun, hidle, hhalt⟩
  · simp [resume_run hresume, hrun] at ht

/-- Settles O16, by what each instruction and each routine in progress does to the run state. -/
theorem onlyHaltHalts : Obligations.OnlyHaltHalts := by
  unfold Obligations.OnlyHaltHalts
  refine ⟨rfl, fun s t => step_halts, fun s hs t h => ?_⟩
  rw [step_halted hs] at h
  cases h

end Sys2Proof.Machine
end

section
/-! ADD (40_alu.md R79, R80): which words decode to its two forms, and what a register write with flags leaves. -/

namespace Sys2Proof

/-! ## Decoding ADD (30_encoding.md R59, R60, R64) -/

/-- Words that agree under a mask that covers bits 15:12 have the same opcode. -/
theorem opcode_eq_of_masked {w w' m : Word} (h : w &&& m = w' &&& m)
    (hm : ∀ k : Fin 4, m.getLsbD (12 + k) = true) : opcode w = opcode w' := by
  refine extract_of_bits fun k => ?_
  rw [bit_of_masked h (hm k), opcode, BitVec.getLsbD_extractLsb']
  simp

/-- Words that agree under a mask that covers bit 5 have the same `imm_flag`. -/
theorem immFlag_eq_of_masked {w w' m : Word} (h : w &&& m = w' &&& m) (hm : m.getLsbD 5 = true) :
    immFlag w = immFlag w' := bit_of_masked h hm

/-- A word of opcode 0001 is an ADD, and bit 5 says which form. -/
theorem decode_of_opcode_add {w : Word} (h : opcode w = 0b0001#4) :
    decode w =
      if immFlag w then .addImm (fieldDR w) (fieldSR1 w) (fieldImm5 w)
      else .addReg (fieldDR w) (fieldSR1 w) (fieldIgnored 3 2 w) (fieldSR2 w) := by
  rw [decode, h, if_neg (by decide), if_pos rfl]

/-- The words of ADD's register form. -/
theorem decode_eq_addReg {w : Word} (h : w &&& 0xF020#16 = 0x1000#16) :
    decode w = .addReg (fieldDR w) (fieldSR1 w) (fieldIgnored 3 2 w) (fieldSR2 w) := by
  have hmask : w &&& 0xF020#16 = 0x1000#16 &&& 0xF020#16 := h
  have hop : opcode w = 0b0001#4 := opcode_eq_of_masked hmask (by decide)
  have himm : immFlag w = false := immFlag_eq_of_masked hmask (by decide)
  simp [decode_of_opcode_add hop, himm]

/-- The words of ADD's immediate form. -/
theorem decode_eq_addImm {w : Word} (h : w &&& 0xF020#16 = 0x1020#16) :
    decode w = .addImm (fieldDR w) (fieldSR1 w) (fieldImm5 w) := by
  have hmask : w &&& 0xF020#16 = 0x1020#16 &&& 0xF020#16 := h
  have hop : opcode w = 0b0001#4 := opcode_eq_of_masked hmask (by decide)
  have himm : immFlag w = true := immFlag_eq_of_masked hmask (by decide)
  simp [decode_of_opcode_add hop, himm]

end Sys2Proof

namespace Sys2Proof.Machine

variable (s : State)

/-! ## A register write with flags -/

/-- A write of a destination register with its flags changes nothing but that register and COND. -/
theorem State.setRegCC_keepsRest (i : RegNum) (v : Word) : KeepsRest [i] s (s.setRegCC i v) := by
  have hregs : KeepsRegs [i] s (s.setRegCC i v) := fun r hr => by
    rw [State.reg_setRegCC, if_neg (by simpa using hr)]
  exact ⟨hregs, fun _ => rfl, ⟨rfl, rfl, rfl⟩, ⟨rfl, rfl⟩, ⟨rfl, rfl⟩⟩

/-- The flags say the sign of the value written. -/
theorem State.setRegCC_flagsMatch (i : RegNum) (v : Word) : FlagsMatch (s.setRegCC i v) v :=
  flagsMatch_of_cond rfl

/-- Where an instruction's whole effect is one register write with flags, DR holds the value after it, COND says its
sign, and PC and the rest stay. -/
theorem exec_setRegCC_effect {i : Instr} {dr : RegNum} {v : Word} (h : exec i s = .next (s.setRegCC dr v)) :
    ∃ t, exec i s = .next t ∧ t.reg dr = v ∧ FlagsMatch t (t.reg dr) ∧ t.pc = s.pc ∧ KeepsRest [dr] s t := by
  have hdr : (s.setRegCC dr v).reg dr = v := by simp
  exact ⟨_, h, hdr, hdr.symm ▸ s.setRegCC_flagsMatch dr v, rfl, s.setRegCC_keepsRest dr v⟩

/-! ## The two forms of ADD -/

theorem exec_addReg (dr sr1 : RegNum) (ign : BitVec 2) (sr2 : RegNum) :
    exec (.addReg dr sr1 ign sr2) s = .next (s.setRegCC dr (s.reg sr1 + s.reg sr2)) := rfl

theorem exec_addImm (dr sr1 : RegNum) (imm5 : BitVec 5) :
    exec (.addImm dr sr1 imm5) s = .next (s.setRegCC dr (s.reg sr1 + sext imm5)) := rfl

/-- A sign extension keeps the signed value (00_scope.md R12). -/
theorem sext_toInt {n : Nat} (hn : n ≤ 16) (f : BitVec n) : (sext f).toInt = f.toInt :=
  BitVec.toInt_signExtend_of_le hn

/-- Settles O19: the decoder by the masked bits, the effect by one register write with flags. -/
theorem addRegisterFollowsR79 : Obligations.AddRegisterFollowsR79 := by
  unfold Obligations.AddRegisterFollowsR79
  refine ⟨fun w hw => decode_eq_addReg hw, fun s dr sr1 ign sr2 => ?_⟩
  obtain ⟨t, hexec, hsum, hflags, hpc, hrest⟩ :=
    exec_setRegCC_effect s (exec_addReg s dr sr1 ign sr2)
  refine ⟨t, hexec, ?_, ?_, hflags, hpc, hrest⟩
  · rw [hsum, BitVec.toNat_add]
  · rw [hsum, BitVec.toInt_add]

/-- Settles O20: as O19, and the extension of imm5 keeps its signed value. -/
theorem addImmediateFollowsR80 : Obligations.AddImmediateFollowsR80 := by
  unfold Obligations.AddImmediateFollowsR80
  refine ⟨fun w hw => decode_eq_addImm hw, fun s dr sr1 imm5 => ?_⟩
  obtain ⟨t, hexec, hsum, hflags, hpc, hrest⟩ :=
    exec_setRegCC_effect s (exec_addImm s dr sr1 imm5)
  refine ⟨t, hexec, ?_, hflags, hpc, hrest⟩
  rw [hsum, BitVec.toInt_add, sext_toInt (by decide)]

end Sys2Proof.Machine
end

section
/-! Anomalies (60_exceptions.md R116-R118): RTI, RES and a TRAP with an invalid vector only append a record, a TRAP
after its trap entry, and the next step fetches at PC. -/

namespace Sys2Proof.Machine

variable (s : State)

/-! ## The step of a state about to fetch -/

/-- The next step of a state about to fetch, with PC named (70_reset_and_hazards.md R135). -/
theorem step_of_idle {s : State} (h : Idle s) :
    step s = exec (decode (s.memRead s.pc).1) { (s.memRead s.pc).2 with pc := s.pc + 1 } := by
  obtain ⟨hrun, hroutine⟩ := h
  rw [step_fetch hrun hroutine, State.fetch, State.memRead_pc]

/-- A state with the same run state and routine as one about to fetch is about to fetch. -/
theorem Idle.of_keepsRun {s t : State} (hs : Idle s) (h : KeepsRun s t) : Idle t :=
  ⟨h.1.trans hs.1, h.2.trans hs.2⟩

/-! ## The frames of trap entry and of `raise` -/

theorem KeepsRest.refl (rs : List RegNum) : KeepsRest rs s s :=
  ⟨fun _ _ => rfl, fun _ => rfl, ⟨rfl, rfl, rfl⟩, ⟨rfl, rfl⟩, ⟨rfl, rfl⟩⟩

/-- Trap entry changes nothing but R7 (R121). -/
theorem State.trapEntry_keepsRest : KeepsRest [7] s s.trapEntry := by
  have hregs : KeepsRegs [7] s s.trapEntry := fun r hr => by
    rw [State.reg_trapEntry, if_neg (by simpa using hr)]
  exact ⟨hregs, fun _ => rfl, ⟨rfl, rfl, rfl⟩, ⟨rfl, rfl⟩, ⟨rfl, rfl⟩⟩

/-- A record raised after a change of the listed registers alone: the frames of that change stand, no byte is put out,
and one record is appended (R117, R118). -/
theorem KeepsRest.raise {s b : State} {rs : List RegNum} (h : KeepsRest rs s b)
    (k : Anomaly) (w : Word) (v : Option Byte) :
    KeepsRegs rs s (b.raise k w v) ∧ KeepsMem s (b.raise k w v) ∧ KeepsKeyboard s (b.raise k w v) ∧
    KeepsRun s (b.raise k w v) ∧ (b.raise k w v).out = s.out ∧ ∃ d, (b.raise k w v).diag = s.diag ++ [d] := by
  obtain ⟨hregs, hmem, hkeyboard, hrun, hout, hdiag⟩ := h
  exact ⟨hregs, hmem, hkeyboard, hrun, hout, _, congrArg (· ++ _) hdiag⟩

/-! ## A TRAP with an invalid vector -/

/-- An invalid vector is none of the valid ones. -/
theorem ne_of_invalidVector {vec v : BitVec 8} (hvec : validVector vec = false) (hv : validVector v = true) :
    vec ≠ v := by
  rintro rfl
  simp [hvec] at hv

/-- The dispatcher answers every invalid vector with one record (43_trap.md R101, R108). -/
theorem dispatchTrap_invalid {vec : BitVec 8} (hvec : validVector vec = false) (w : Word) :
    dispatchTrap w vec s = s.raise .invalidTrapVector w (some vec) := by
  have hne {v : BitVec 8} (hv : validVector v = true) : vec ≠ v := ne_of_invalidVector hvec hv
  rw [dispatchTrap, if_neg (hne (by decide)), if_neg (hne (by decide)), if_neg (hne (by decide)),
    if_neg (hne (by decide)), if_neg (hne (by decide)), if_neg (hne (by decide)), trapInvalid]

/-- A TRAP with an invalid vector does its trap entry and appends one record. -/
theorem exec_trap_invalid (ign : BitVec 4) {vec : BitVec 8} (hvec : validVector vec = false) :
    exec (.trap ign vec) s =
      .next (s.trapEntry.raise .invalidTrapVector (encode (.trap ign vec)) (some vec)) := by
  rw [← dispatchTrap_invalid s.trapEntry hvec]
  rfl

/-- Of the registers a TRAP may write, one with an invalid vector is left R7. -/
theorem writtenRegs_trap_invalid (ign : BitVec 4) {vec : BitVec 8} (hvec : validVector vec = false) :
    writtenRegs (.trap ign vec) = [7] := by
  have hGetc : vec ≠ 0x20#8 := ne_of_invalidVector hvec (by decide)
  have hIn : vec ≠ 0x23#8 := ne_of_invalidVector hvec (by decide)
  simp [writtenRegs, hGetc, hIn]

/-! ## The three anomalies -/

theorem exec_rti (ign : BitVec 12) :
    exec (.rti ign) s = .next (s.raise .invalidOpcode (encode (.rti ign)) none) := rfl

theorem exec_res (ign : BitVec 12) :
    exec (.res ign) s = .next (s.raise .invalidOpcode (encode (.res ign)) none) := rfl

/-- Each of the three anomalies ends in a `raise`, from a state `b` that differs from `s` at most in the registers its
instruction may write; for a TRAP, R7 of `b` holds the return address. -/
theorem exec_anomaly_raises {i : Instr}
    (h : (∃ ign, i = .rti ign) ∨ (∃ ign, i = .res ign) ∨ (∃ ign vec, i = .trap ign vec ∧ validVector vec = false)) :
    ∃ b k w v, exec i s = .next (b.raise k w v) ∧ b.pc = s.pc ∧ b.cond = s.cond ∧ KeepsRest (writtenRegs i) s b ∧
      ∀ ign vec, i = .trap ign vec → b.reg 7 = s.pc := by
  obtain ⟨ign, rfl⟩ | ⟨ign, rfl⟩ | ⟨ign, vec, rfl, hvec⟩ := h
  case inl => exact ⟨s, _, _, _, exec_rti s ign, rfl, rfl, KeepsRest.refl s _, nofun⟩
  case inr.inl => exact ⟨s, _, _, _, exec_res s ign, rfl, rfl, KeepsRest.refl s _, nofun⟩
  case inr.inr =>
    have hrest : KeepsRest (writtenRegs (.trap ign vec)) s s.trapEntry := by
      rw [writtenRegs_trap_invalid ign hvec]
      exact s.trapEntry_keepsRest
    exact ⟨s.trapEntry, _, _, _, exec_trap_invalid s ign hvec, rfl, rfl, hrest, fun _ _ _ => by simp⟩

/-- Settles O55: each anomaly ends in a `raise`, which leaves the state about to fetch at the same PC. -/
theorem anomalyIsNoTrap : Obligations.AnomalyIsNoTrap := by
  unfold Obligations.AnomalyIsNoTrap
  intro s i hs hi
  obtain ⟨b, k, w, v, hexec, hpc, hcond, hrest, hlink⟩ := exec_anomaly_raises s hi
  obtain ⟨hregs, hmem, hkeyboard, hrun, hout, hdiag⟩ := hrest.raise k w v
  have hpc' : (b.raise k w v).pc = s.pc := hpc
  have hstep := step_of_idle (hs.of_keepsRun hrun)
  rw [hpc'] at hstep
  exact ⟨_, hexec, hpc', hcond, hregs, hmem, hkeyboard, hrun, hout, hdiag, hlink, hstep⟩

end Sys2Proof.Machine
end

section
/-! Halted is final and no other run state is (70_reset_and_hazards.md R137, R139). -/

namespace Sys2Proof.Machine

/-- A routine in progress never answers the fault `halted`: it goes on, or is held for input (43_trap.md R109). -/
theorem resume_ne_fault_halted (r : Routine) (s : State) : resume r s ≠ .fault .halted := by
  cases r with simp only [resume]
  | getc => split <;> simp
  | inChar => split <;> simp
  | puts a => simp
  | putsp a => simp

/-- A Running CORE has its step, or lacks it for want of input. -/
theorem step_ne_fault_halted {s : State} (h : s.run = .running) : step s ≠ .fault .halted := by
  cases hk : s.routine with
  | none =>
    obtain ⟨t, ht, -⟩ := exec_next_run s.fetch.2 (decode s.fetch.1)
    simp [step_fetch h hk, ht]
  | some r => simpa [step_resume h hk] using resume_ne_fault_halted r s

theorem step_eq_fault_halted_iff (s : State) : step s = .fault .halted ↔ s.run = .halted := by
  cases h : s.run with
  | halted => simp [step_halted h]
  | running => simp [step_ne_fault_halted h]

/-- Neither the CORE nor the host moves a Halted state. -/
theorem not_moves_of_halted {s : State} (h : s.run = .halted) (t : State) : ¬ Moves s t := by
  intro hm
  cases hm with
  | core hstep => simp [step_halted h] at hstep
  | supply b hrun => simp [h] at hrun

/-- A state that is final is Halted: at any other the host may still supply a byte. -/
theorem run_halted_of_no_moves {s : State} (h : ∀ t, ¬ Moves s t) : s.run = .halted := by
  cases hrun : s.run with
  | halted => rfl
  | running => exact absurd (Moves.supply 0 hrun) (h _)

/-- Settles O12, by the run state: the answer of `step` and the host's move at each of the two. -/
theorem haltedAloneIsFinal : Obligations.HaltedAloneIsFinal := by
  unfold Obligations.HaltedAloneIsFinal
  exact fun s => ⟨step_eq_fault_halted_iff s, run_halted_of_no_moves, not_moves_of_halted⟩

end Sys2Proof.Machine
end

section
/-! Program images (70_reset_and_hazards.md R134): what a cell holds after one image, and after several. -/

namespace Sys2Proof.Machine

theorem State.peek_hostWrite (s : State) (a v x : Word) :
    (s.hostWrite a v).peek x = if x = a then v else s.peek x := s.peek_poke a v x

/-- A cell holds the image's word at its distance from the origin, or what it held where the image is shorter. It holds
of an image that wraps past 0xFFFF too (log 13), as long as the image does not come round to its own origin. -/
theorem State.peek_loadImage (s : State) (origin : Word) (ws : List Word) (a : Word) (h : ws.length ≤ 65536) :
    (s.loadImage origin ws).peek a = ws.getD (a - origin).toNat (s.peek a) := by
  induction ws generalizing s origin with
  | nil => rfl
  | cons w ws ih =>
    rw [List.length_cons] at h
    rw [State.loadImage, ih _ _ (by omega), State.peek_hostWrite]
    by_cases ha : a = origin
    · have hlast : ws.length ≤ (a - (origin + 1)).toNat := by bv_omega
      rw [if_pos ha, List.getD_eq_default _ _ hlast]
      simp [ha]
    · have hnext : (a - origin).toNat = (a - (origin + 1)).toNat + 1 := by bv_omega
      rw [if_neg ha, hnext, List.getD_cons_succ]

/-- An image leaves every cell it does not cover. -/
theorem State.peek_loadImage_uncovered (s : State) {origin : Word} {ws : List Word} {a : Word}
    (h : ws.length ≤ (a - origin).toNat) : (s.loadImage origin ws).peek a = s.peek a := by
  rw [s.peek_loadImage origin ws a (by omega), List.getD_eq_default _ _ h]

theorem State.loadImages_append (s : State) (ims ims' : List (Word × List Word)) :
    s.loadImages (ims ++ ims') = (s.loadImages ims).loadImages ims' := by
  induction ims generalizing s with
  | nil => rfl
  | cons im ims ih => exact ih _

/-- Images leave every cell that none of them covers. -/
theorem State.peek_loadImages_uncovered (s : State) {ims : List (Word × List Word)} {a : Word}
    (h : ∀ im ∈ ims, im.2.length ≤ (a - im.1).toNat) : (s.loadImages ims).peek a = s.peek a := by
  induction ims generalizing s with
  | nil => rfl
  | cons im ims ih =>
    obtain ⟨him, hims⟩ := List.forall_mem_cons.mp h
    rw [State.loadImages, ih _ hims, s.peek_loadImage_uncovered him]

/-- Settles O60: one image by induction on its words, several by induction on the list. -/
theorem imagesLoadInOrder : Obligations.ImagesLoadInOrder := by
  unfold Obligations.ImagesLoadInOrder
  refine ⟨fun s origin ws a h => ?_, fun s ims im => ?_, fun ims a h => ?_⟩
  · exact s.peek_loadImage origin ws a (by omega)
  · exact s.loadImages_append ims [im]
  · rw [State.peek_loadImages_uncovered _ fun im him => (h im him).2, State.peek_reset]

end Sys2Proof.Machine
end

section
/-! The decoder, the encoder and the opcode table (30_encoding.md R57-R66): the fields of a word, the row each
instruction stands for, and that decoding and encoding are inverse to each other. -/

namespace Sys2Proof

/-! ## Fields of a word -/

/-- Words that agree under a mask have the same field wherever the mask covers it. -/
theorem extract_eq_of_masked {w w' m : Word} {lo n : Nat} (h : w &&& m = w' &&& m)
    (hm : ∀ k : Fin n, m.getLsbD (lo + k) = true) : w.extractLsb' lo n = w'.extractLsb' lo n := by
  refine extract_of_bits fun k => ?_
  rw [bit_of_masked h (hm k), BitVec.getLsbD_extractLsb']
  simp

/-- Words that agree under a mask that covers bit 11 have the same `long_flag`. -/
theorem longFlag_eq_of_masked {w w' m : Word} (h : w &&& m = w' &&& m) (hm : m.getLsbD 11 = true) :
    longFlag w = longFlag w' := bit_of_masked h hm

/-! ## What each row decodes to -/

/-- The instruction of the row of `i`, its operands and ignored bits read from `w` at the bits of the row's format
(R59, R60). -/
def readOperands : Instr → Word → Instr
  | .addReg _ _ _ _, w => .addReg (fieldDR w) (fieldSR1 w) (fieldIgnored 3 2 w) (fieldSR2 w)
  | .addImm _ _ _, w => .addImm (fieldDR w) (fieldSR1 w) (fieldImm5 w)
  | .andReg _ _ _ _, w => .andReg (fieldDR w) (fieldSR1 w) (fieldIgnored 3 2 w) (fieldSR2 w)
  | .andImm _ _ _, w => .andImm (fieldDR w) (fieldSR1 w) (fieldImm5 w)
  | .notReg _ _ _, w => .notReg (fieldDR w) (fieldSR1 w) (fieldOff6 w)
  | .ld _ _, w => .ld (fieldDR w) (fieldOff9 w)
  | .ldi _ _, w => .ldi (fieldDR w) (fieldOff9 w)
  | .ldr _ _ _, w => .ldr (fieldDR w) (fieldSR1 w) (fieldOff6 w)
  | .lea _ _, w => .lea (fieldDR w) (fieldOff9 w)
  | .st _ _, w => .st (fieldDR w) (fieldOff9 w)
  | .sti _ _, w => .sti (fieldDR w) (fieldOff9 w)
  | .str _ _ _, w => .str (fieldDR w) (fieldSR1 w) (fieldOff6 w)
  | .br _ _, w => .br (fieldDR w) (fieldOff9 w)
  | .jmp _ _ _, w => .jmp (fieldDR w) (fieldSR1 w) (fieldOff6 w)
  | .jsr _, w => .jsr (fieldOff11 w)
  | .jsrr _ _ _, w => .jsrr (fieldIgnored 9 2 w) (fieldSR1 w) (fieldOff6 w)
  | .trap _ _, w => .trap (fieldIgnored 8 4 w) (fieldVect8 w)
  | .rti _, w => .rti (fieldIgnored 0 12 w)
  | .res _, w => .res (fieldIgnored 0 12 w)

/-! ## The rows of the table -/

theorem rowOf_mem_opcodeTable (i : Instr) : rowOf i ∈ opcodeTable := by
  cases i <;> simp [opcodeTable, rowOf]

theorem fixed_masked_of_mem {r : Row} (h : r ∈ opcodeTable) : r.fixed &&& r.mask = r.fixed := by
  revert r
  decide

/-- Every row fixes the whole opcode. -/
theorem mask_opcode_of_mem {r : Row} (h : r ∈ opcodeTable) (k : Fin 4) : r.mask.getLsbD (12 + k) = true := by
  revert r k
  decide

/-- A word that a row covers has the opcode of the row. -/
theorem opcode_of_covered {r : Row} (hr : r ∈ opcodeTable) {w : Word} (h : w &&& r.mask = r.fixed) :
    opcode w = opcode r.fixed :=
  opcode_eq_of_masked (h.trans (fixed_masked_of_mem hr).symm) (mask_opcode_of_mem hr)

/-- A word that the row of `i` covers decodes to that row's instruction, with its own operands. -/
theorem decode_of_covered (i : Instr) {w : Word} (h : w &&& (rowOf i).mask = (rowOf i).fixed) :
    decode w = readOperands i w := by
  have hmask := h.trans (fixed_masked_of_mem (rowOf_mem_opcodeTable i)).symm
  have hop := opcode_of_covered (rowOf_mem_opcodeTable i) h
  rw [opcode, opcode] at hop
  cases i
  case addReg | addImm | andReg | andImm =>
    have himm := immFlag_eq_of_masked hmask (by simp [rowOf])
    simp_all [decode, rowOf, readOperands, opcode, immFlag]
  case jsr | jsrr =>
    have hlong := longFlag_eq_of_masked hmask (by simp [rowOf])
    simp_all [decode, rowOf, readOperands, opcode, longFlag]
  all_goals simp_all [decode, rowOf, readOperands, opcode]

/-- The row of an instruction covers the word it encodes to. -/
theorem covers_encode (i : Instr) : encode i &&& (rowOf i).mask = (rowOf i).fixed := by
  have h : rowCovers (rowOf i) (encode i) = true := by
    cases i with
    | addReg => exact Laws.RowWord.addReg ..
    | addImm => exact Laws.RowWord.addImm ..
    | andReg => exact Laws.RowWord.andReg ..
    | andImm => exact Laws.RowWord.andImm ..
    | notReg => exact Laws.RowWord.notReg ..
    | ld => exact Laws.RowWord.ld ..
    | ldi => exact Laws.RowWord.ldi ..
    | ldr => exact Laws.RowWord.ldr ..
    | lea => exact Laws.RowWord.lea ..
    | st => exact Laws.RowWord.st ..
    | sti => exact Laws.RowWord.sti ..
    | str => exact Laws.RowWord.str ..
    | br => exact Laws.RowWord.br ..
    | jmp => exact Laws.RowWord.jmp ..
    | jsr => exact Laws.RowWord.jsr ..
    | jsrr => exact Laws.RowWord.jsrr ..
    | trap => exact Laws.RowWord.trap ..
    | rti => exact Laws.RowWord.rti ..
    | res => exact Laws.RowWord.res ..
  exact beq_iff_eq.mp h

/-- The encoder lays the operands out where the row's format reads them. -/
theorem readOperands_encode (i : Instr) : readOperands i (encode i) = i := by
  cases i <;>
    simp (disch := decide) only [readOperands, encode, fieldDR, fieldSR1, fieldSR2, fieldImm5, fieldOff6, fieldOff9,
      fieldOff11, fieldVect8, fieldIgnored, BitVec.extractLsb'_append_eq_of_le,
      BitVec.extractLsb'_append_eq_of_add_le] <;>
    simp

/-- Settles O5: the encoded word is covered by its instruction's row, and the row's format reads the operands back. -/
theorem decodeInvertsEncode : Obligations.DecodeInvertsEncode := by
  unfold Obligations.DecodeInvertsEncode
  intro i _
  rw [decode_of_covered i (covers_encode i), readOperands_encode i]


/-! ## Every word is covered -/

/-- What a mask over the opcode alone leaves of a word. -/
theorem masked_opcode (w : Word) : w &&& 0xF000#16 = opcode w ++ 0#12 := by
  apply BitVec.eq_of_getLsbD_eq
  intro k hk
  interval_cases k <;> simp only [opcode, BitVec.getLsbD_append] <;> simp

/-- What a mask over the opcode and bit 5 leaves of a word. -/
theorem masked_opcode_immFlag (w : Word) :
    w &&& 0xF020#16 = opcode w ++ 0#6 ++ BitVec.ofBool (immFlag w) ++ 0#5 := by
  apply BitVec.eq_of_getLsbD_eq
  intro k hk
  interval_cases k <;> simp only [opcode, immFlag, BitVec.getLsbD_append] <;> simp

/-- What a mask over the opcode and bit 11 leaves of a word. -/
theorem masked_opcode_longFlag (w : Word) : w &&& 0xF800#16 = opcode w ++ BitVec.ofBool (longFlag w) ++ 0#11 := by
  apply BitVec.eq_of_getLsbD_eq
  intro k hk
  interval_cases k <;> simp only [opcode, longFlag, BitVec.getLsbD_append] <;> simp

/-- Opcode, `imm_flag` and `long_flag`, whatever they are, fit a row (R64, R65). -/
theorem exists_row_of_opcode_flags (op : BitVec 4) (imm long : Bool) :
    ∃ r ∈ opcodeTable,
      (r.mask = 0xF000#16 ∧ r.fixed = op ++ 0#12) ∨
      (r.mask = 0xF020#16 ∧ r.fixed = op ++ 0#6 ++ BitVec.ofBool imm ++ 0#5) ∨
      (r.mask = 0xF800#16 ∧ r.fixed = op ++ BitVec.ofBool long ++ 0#11) := by
  revert op imm long
  decide

theorem exists_row_covers (w : Word) : ∃ r ∈ opcodeTable, w &&& r.mask = r.fixed := by
  obtain ⟨r, hr, ⟨hm, hf⟩ | ⟨hm, hf⟩ | ⟨hm, hf⟩⟩ := exists_row_of_opcode_flags (opcode w) (immFlag w) (longFlag w)
  · exact ⟨r, hr, by rw [hm, hf, masked_opcode]⟩
  · exact ⟨r, hr, by rw [hm, hf, masked_opcode_immFlag]⟩
  · exact ⟨r, hr, by rw [hm, hf, masked_opcode_longFlag]⟩

theorem exists_rowOf_of_mem {r : Row} (h : r ∈ opcodeTable) : ∃ i, r = rowOf i := by
  simp only [opcodeTable, List.cons_append, List.nil_append, List.mem_cons, List.not_mem_nil, or_false] at h
  rcases h with h | h | h | h | h | h | h | h | h | h | h | h | h | h | h | h | h | h | h <;> exact ⟨_, h⟩

/-- The fields of a covered word, laid out again after the row's own bits, close up to the word. -/
theorem encode_readOperands (i : Instr) {w : Word} (h : w &&& (rowOf i).mask = (rowOf i).fixed) :
    encode (readOperands i w) = w := by
  have hmask := h.trans (fixed_masked_of_mem (rowOf_mem_opcodeTable i)).symm
  have hop := opcode_of_covered (rowOf_mem_opcodeTable i) h
  cases i <;>
    simp only [rowOf, opcode, BitVec.reduceExtractLsb'] at hop <;>
    simp only [encode, readOperands, fieldDR, fieldSR1, fieldSR2, fieldImm5, fieldOff6, fieldOff9, fieldOff11,
      fieldVect8, fieldIgnored, ← hop]
  case addReg | addImm | andReg | andImm =>
    have hflag := extract_eq_of_masked (lo := 5) (n := 1) hmask (by simp [rowOf])
    simp only [rowOf, BitVec.reduceExtractLsb'] at hflag
    simp (disch := decide) only [← hflag, BitVec.extractLsb'_append_extractLsb'_eq_extractLsb']
    exact BitVec.extractLsb'_eq_self
  case jsr | jsrr =>
    have hflag := extract_eq_of_masked (lo := 11) (n := 1) hmask (by simp [rowOf])
    simp only [rowOf, BitVec.reduceExtractLsb'] at hflag
    simp (disch := decide) only [← hflag, BitVec.extractLsb'_append_extractLsb'_eq_extractLsb']
    exact BitVec.extractLsb'_eq_self
  all_goals
    simp (disch := decide) only [BitVec.extractLsb'_append_extractLsb'_eq_extractLsb']
    exact BitVec.extractLsb'_eq_self

/-- Every word is covered by the row of some instruction. -/
theorem exists_instr_covers (w : Word) : ∃ i, w &&& (rowOf i).mask = (rowOf i).fixed := by
  obtain ⟨r, hr, hw⟩ := exists_row_covers w
  obtain ⟨i, rfl⟩ := exists_rowOf_of_mem hr
  exact ⟨i, hw⟩

/-- Settles O6: the word is covered by a row, and its fields under that row's format make it up. -/
theorem encodeInvertsDecode : Obligations.EncodeInvertsDecode := by
  unfold Obligations.EncodeInvertsDecode
  intro w
  obtain ⟨i, hi⟩ := exists_instr_covers w
  rw [decode_of_covered i hi, encode_readOperands i hi]

/-! ## One row for each word -/

/-- Two rows of the table differ at a bit that both fix. -/
theorem opcodeTable_exclusive :
    opcodeTable.Pairwise fun r r' => r.fixed &&& r'.mask ≠ r'.fixed &&& r.mask := by decide

/-- No two rows of the table cover one word. -/
theorem opcodeTable_pairwise_not_covers (w : Word) :
    opcodeTable.Pairwise fun r r' => ¬ (rowCovers r w = true ∧ rowCovers r' w = true) := by
  refine opcodeTable_exclusive.imp ?_
  rintro r r' hne ⟨h, h'⟩
  rw [rowCovers, beq_iff_eq] at h h'
  apply hne
  rw [← h, ← h', BitVec.and_assoc, BitVec.and_assoc, BitVec.and_comm r.mask]

theorem filter_eq_singleton {α : Type} {p : α → Bool} {l : List α} {x : α}
    (hl : l.Pairwise fun a b => ¬ (p a = true ∧ p b = true)) (hx : x ∈ l) (hp : p x = true) : l.filter p = [x] := by
  induction l with
  | nil => cases hx
  | cons a l ih =>
    obtain ⟨ha, hl⟩ := List.pairwise_cons.mp hl
    obtain rfl | hx := List.mem_cons.mp hx
    · simpa [hp] using fun b hb hpb => ha b hb ⟨hp, hpb⟩
    · rw [List.filter_cons_of_neg fun hpa => ha x hx ⟨hpa, hp⟩, ih hl hx]

theorem rowOf_readOperands (i : Instr) (w : Word) : rowOf (readOperands i w) = rowOf i := by
  cases i <;> rfl

/-- Settles O7: some row covers the word, no two do, and the decoded instruction stands for it. -/
theorem exactlyOneTableRowCoversEachWord : Obligations.ExactlyOneTableRowCoversEachWord := by
  unfold Obligations.ExactlyOneTableRowCoversEachWord
  intro w
  obtain ⟨i, hi⟩ := exists_instr_covers w
  rw [decode_of_covered i hi, rowOf_readOperands]
  exact filter_eq_singleton (opcodeTable_pairwise_not_covers w) (rowOf_mem_opcodeTable i) (beq_iff_eq.mpr hi)

/-- Settles O9: each row's clause is the decoding of a word that the row covers. -/
theorem decodeReadsEveryField : Obligations.DecodeReadsEveryField := by
  unfold Obligations.DecodeReadsEveryField
  intro w
  exact ⟨decode_of_covered (.addReg 0 0 0 0), decode_of_covered (.addImm 0 0 0), decode_of_covered (.andReg 0 0 0 0),
    decode_of_covered (.andImm 0 0 0), decode_of_covered (.notReg 0 0 0), decode_of_covered (.ld 0 0),
    decode_of_covered (.ldi 0 0), decode_of_covered (.ldr 0 0 0), decode_of_covered (.lea 0 0),
    decode_of_covered (.st 0 0), decode_of_covered (.sti 0 0), decode_of_covered (.str 0 0 0),
    decode_of_covered (.br 0 0), decode_of_covered (.jmp 0 0 0), decode_of_covered (.jsr 0),
    decode_of_covered (.jsrr 0 0 0), decode_of_covered (.trap 0 0), decode_of_covered (.rti 0),
    decode_of_covered (.res 0)⟩

/-- Settles O8, by decoding each word. -/
theorem sampleWordsDecode : Obligations.SampleWordsDecode := by
  unfold Obligations.SampleWordsDecode
  decide

end Sys2Proof
end

section
/-! Ignored bits (30_encoding.md R61): words that agree outside them execute the same. -/

namespace Sys2Proof.Machine

/-- Words that agree under a mask agree under every mask it covers. -/
theorem masked_of_masked {w w' m r : Word} (h : w &&& m = w' &&& m) (hm : m &&& r = r) : w &&& r = w' &&& r := by
  rw [← hm, ← BitVec.and_assoc, h, BitVec.and_assoc]

/-- Two words that agree under a mask over the row's bits decode to the same row. -/
theorem decode_pair_of_masked (i : Instr) {w w' m : Word} (h : w &&& m = w' &&& m)
    (hw : w &&& (rowOf i).mask = (rowOf i).fixed) (hm : m &&& (rowOf i).mask = (rowOf i).mask) :
    decode w = readOperands i w ∧ decode w' = readOperands i w' :=
  ⟨decode_of_covered i hw, decode_of_covered i ((masked_of_masked h hm).symm.trans hw)⟩

/-- ADD and AND of registers read nothing at bits 4:3. -/
theorem exec_register_form_congr (s : State) {w w' : Word} (hop : opcode w = 0b0001#4 ∨ opcode w = 0b0101#4)
    (himm : immFlag w = false) (h : w &&& 0xFFE7#16 = w' &&& 0xFFE7#16) :
    exec (decode w) s = exec (decode w') s := by
  have hdr : fieldDR w = fieldDR w' := extract_eq_of_masked h (by decide)
  have hsr1 : fieldSR1 w = fieldSR1 w' := extract_eq_of_masked h (by decide)
  have hsr2 : fieldSR2 w = fieldSR2 w' := extract_eq_of_masked h (by decide)
  have hmask := masked_opcode_immFlag w
  obtain hop | hop := hop <;> rw [hop, himm] at hmask
  · obtain ⟨hw, hw'⟩ := decode_pair_of_masked (.addReg 0 0 0 0) h hmask (by decide)
    simp [hw, hw', readOperands, exec, hdr, hsr1, hsr2]
  · obtain ⟨hw, hw'⟩ := decode_pair_of_masked (.andReg 0 0 0 0) h hmask (by decide)
    simp [hw, hw', readOperands, exec, hdr, hsr1, hsr2]

/-- NOT reads nothing at bits 5:0. -/
theorem exec_not_congr (s : State) {w w' : Word} (hop : opcode w = 0b1001#4)
    (h : w &&& 0xFFC0#16 = w' &&& 0xFFC0#16) : exec (decode w) s = exec (decode w') s := by
  have hdr : fieldDR w = fieldDR w' := extract_eq_of_masked h (by decide)
  have hsr : fieldSR1 w = fieldSR1 w' := extract_eq_of_masked h (by decide)
  have hmask := masked_opcode w
  rw [hop] at hmask
  obtain ⟨hw, hw'⟩ := decode_pair_of_masked (.notReg 0 0 0) h hmask (by decide)
  simp [hw, hw', readOperands, exec, hdr, hsr]

/-- JMP reads nothing at bits 11:9 and 5:0. -/
theorem exec_jmp_congr (s : State) {w w' : Word} (hop : opcode w = 0b1100#4)
    (h : w &&& 0xF1C0#16 = w' &&& 0xF1C0#16) : exec (decode w) s = exec (decode w') s := by
  have hbase : fieldSR1 w = fieldSR1 w' := extract_eq_of_masked h (by decide)
  have hmask := masked_opcode w
  rw [hop] at hmask
  obtain ⟨hw, hw'⟩ := decode_pair_of_masked (.jmp 0 0 0) h hmask (by decide)
  simp [hw, hw', readOperands, exec, hbase]

/-- JSRR reads nothing at bits 10:9 and 5:0. -/
theorem exec_jsrr_congr (s : State) {w w' : Word} (hop : opcode w = 0b0100#4) (hlong : longFlag w = false)
    (h : w &&& 0xF9C0#16 = w' &&& 0xF9C0#16) : exec (decode w) s = exec (decode w') s := by
  have hbase : fieldSR1 w = fieldSR1 w' := extract_eq_of_masked h (by decide)
  have hmask := masked_opcode_longFlag w
  rw [hop, hlong] at hmask
  obtain ⟨hw, hw'⟩ := decode_pair_of_masked (.jsrr 0 0 0) h hmask (by decide)
  simp [hw, hw', readOperands, exec, hbase]

/-- The word of the instruction reaches no routine of a valid vector. -/
theorem dispatchTrap_word_irrelevant (s : State) {vec : BitVec 8} (hvec : validVector vec = true) (w w' : Word) :
    dispatchTrap w vec s = dispatchTrap w' vec s := by
  unfold dispatchTrap
  split_ifs with hGetc hOut hPuts hIn hPutsp hHalt
  case neg =>
    rw [validVector, Bool.and_eq_true, decide_eq_true_eq, decide_eq_true_eq] at hvec
    exfalso
    bv_omega
  all_goals rfl

/-- Two TRAPs that agree outside bits 11:8. -/
theorem decode_trap_pair {w w' : Word} (hop : opcode w = 0b1111#4) (h : w &&& 0xF0FF#16 = w' &&& 0xF0FF#16) :
    decode w = .trap (fieldIgnored 8 4 w) (fieldVect8 w) ∧ decode w' = .trap (fieldIgnored 8 4 w') (fieldVect8 w) := by
  have hvect : fieldVect8 w = fieldVect8 w' := extract_eq_of_masked h (by decide)
  have hmask := masked_opcode w
  rw [hop] at hmask
  obtain ⟨hw, hw'⟩ := decode_pair_of_masked (.trap 0 0) h hmask (by decide)
  exact ⟨hw, hw'.trans (by rw [readOperands, hvect])⟩

/-- A TRAP to a routine reads nothing at bits 11:8. -/
theorem exec_trap_congr (s : State) {w w' : Word} (hop : opcode w = 0b1111#4)
    (hvec : validVector (fieldVect8 w) = true) (h : w &&& 0xF0FF#16 = w' &&& 0xF0FF#16) :
    exec (decode w) s = exec (decode w') s := by
  obtain ⟨hw, hw'⟩ := decode_trap_pair hop h
  rw [hw, hw']
  exact congrArg Host.Outcome.next (dispatchTrap_word_irrelevant s.trapEntry hvec _ _)

theorem decode_rti {w : Word} (hop : opcode w = 0b1000#4) : decode w = .rti (fieldIgnored 0 12 w) := by
  have hmask := masked_opcode w
  rw [hop] at hmask
  exact decode_of_covered (.rti 0) hmask

theorem decode_res {w : Word} (hop : opcode w = 0b1101#4) : decode w = .res (fieldIgnored 0 12 w) := by
  have hmask := masked_opcode w
  rw [hop] at hmask
  exact decode_of_covered (.res 0) hmask

/-- Settles O10, form by form. -/
theorem ignoredBitsChangeNothing : Obligations.IgnoredBitsChangeNothing := by
  unfold Obligations.IgnoredBitsChangeNothing
  refine fun s w w' => ⟨exec_register_form_congr s, exec_not_congr s, exec_jmp_congr s, exec_jsrr_congr s,
    exec_trap_congr s, ?_⟩
  rintro (⟨hop | hop, hop'⟩ | ⟨hop, hvec, h⟩)
  · rw [decode_rti hop, decode_rti (hop'.trans hop)]
    exact ⟨_, _, exec_rti s _, exec_rti s _, rfl⟩
  · rw [decode_res hop, decode_res (hop'.trans hop)]
    exact ⟨_, _, exec_res s _, exec_res s _, rfl⟩
  · obtain ⟨hw, hw'⟩ := decode_trap_pair hop h
    rw [hw, hw']
    exact ⟨_, _, exec_trap_invalid s _ hvec, exec_trap_invalid s _ hvec, rfl⟩

end Sys2Proof.Machine
end

section
/-! BR (42_control.md R94): the mask n:z:p and COND's three flags, test by test. -/

namespace Sys2Proof.Machine

/-- A flag that the mask n:z:p names is set in COND (R94). -/
def maskedFlagSet (nzp : BitVec 3) (cond : Word) : Bool :=
  (nzp.getLsbD 2 && cond.getLsbD 2) || (nzp.getLsbD 1 && cond.getLsbD 1) || (nzp.getLsbD 0 && cond.getLsbD 0)

/-- The mask lines up with COND's three flags, so the AND is zero exactly where none of them is named and set. -/
theorem zext_and_eq_zero_iff (nzp : BitVec 3) (cond : Word) :
    zext nzp &&& cond = 0x0000#16 ↔ maskedFlagSet nzp cond = false := by
  have hbit (k : Nat) (hk : k < 3) : (zext nzp &&& cond).getLsbD k = (nzp.getLsbD k && cond.getLsbD k) := by
    rw [BitVec.getLsbD_and, zext_getLsbD nzp (by omega), decide_eq_true hk, Bool.true_and]
  rw [maskedFlagSet, Bool.or_eq_false_iff, Bool.or_eq_false_iff, ← hbit 2 (by decide), ← hbit 1 (by decide),
    ← hbit 0 (by decide)]
  constructor
  · intro h
    simp [h]
  · rintro ⟨⟨h2, h1⟩, h0⟩
    apply BitVec.eq_of_getLsbD_eq
    intro k hk
    by_cases hk3 : k < 3
    · rw [BitVec.getLsbD_zero]
      interval_cases k
      · exact h0
      · exact h1
      · exact h2
    · rw [BitVec.getLsbD_and, zext_getLsbD nzp hk, decide_eq_false hk3]
      simp

variable (s : State)

theorem exec_br (nzp : BitVec 3) (off9 : BitVec 9) :
    exec (.br nzp off9) s = .next (s.jump (if maskedFlagSet nzp s.cond then s.pcRel off9 else s.pc)) := by
  have hexec : exec (.br nzp off9) s =
      .next (if zext nzp &&& s.cond ≠ 0x0000#16 then s.jump (s.pcRel off9) else s) := rfl
  have hzero := zext_and_eq_zero_iff nzp s.cond
  cases h : maskedFlagSet nzp s.cond with
  | false =>
    rw [hexec, if_neg (not_not.mpr (hzero.mpr h))]
    rfl
  | true =>
    rw [hexec, if_pos fun hz => by simp [hzero.mp hz] at h]
    rfl

end Sys2Proof.Machine
end

section
/-! What an instruction can do to the state: each meaning said once as a composition of the named operations, so that the
whole-machine rules are case splits over the effect and not over the meanings. -/

namespace Sys2Proof.Machine

/-- `u` is what some reads through the memory port leave of `s`. -/
inductive ReadFrom (s : State) : State → Prop where
  | refl : ReadFrom s s
  | read {u : State} (a : Word) : ReadFrom s u → ReadFrom s (u.memRead a).2

/-- What a TRAP leaves of `s`, by its vector (43_trap.md R100, R101); `exec_trap_effect` ties it to `exec`. -/
inductive TrapEffect (s : State) (ign : BitVec 4) : BitVec 8 → State → Prop where
  | getc : TrapEffect s ign 0x20#8 s.trapEntry.getc
  | out (b : Byte) : TrapEffect s ign 0x21#8 (s.trapEntry.emit [b])
  | puts (a : Word) : TrapEffect s ign 0x22#8 (s.trapEntry.print putsWord .puts a)
  | inChar : TrapEffect s ign 0x23#8 (s.trapEntry.emit Config.inPrompt).inChar
  | putsp (a : Word) : TrapEffect s ign 0x24#8 (s.trapEntry.print putspWord .putsp a)
  | halt : TrapEffect s ign 0x25#8 s.trapEntry.halt
  | invalid {vec : BitVec 8} : validVector vec = false →
      TrapEffect s ign vec (s.trapEntry.raise .invalidTrapVector (encode (.trap ign vec)) (some vec))

/-- What an instruction leaves of `s`, by its family (40_alu.md to 44_reserved.md); `exec_effect` ties it to `exec`. -/
inductive Effect (s : State) : Instr → State → Prop where
  | writesReg {i : Instr} {u : State} {dr : RegNum} (v : Word) :
      ReadFrom s u → writtenRegs i = [dr] → setsFlags i = true → Effect s i (u.setRegCC dr v)
  | stores {i : Instr} {u : State} (a v : Word) : ReadFrom s u → storesMem i = true → Effect s i (u.memWrite a v)
  | branches {i : Instr} (a : Word) : writtenRegs i = [] → Effect s i (s.jump a)
  | calls {i : Instr} (a : Word) : writtenRegs i = [7] → Effect s i ((s.setReg 7 s.pc).jump a)
  | raises {i : Instr} : ((∃ ign, i = .rti ign) ∨ ∃ ign, i = .res ign) →
      Effect s i (s.raise .invalidOpcode (encode i) none)
  | trap {ign : BitVec 4} {vec : BitVec 8} {t : State} : TrapEffect s ign vec t → Effect s (.trap ign vec) t

/-- What no sequence of reads changes. -/
theorem ReadFrom.keeps {s u : State} (h : ReadFrom s u) :
    u.regs = s.regs ∧ u.pc = s.pc ∧ u.cond = s.cond ∧ u.mem = s.mem ∧ u.run = s.run ∧ u.out = s.out ∧
    u.diag = s.diag ∧ u.routine = s.routine ∧ u.params = s.params := by
  induction h with
  | refl => exact ⟨rfl, rfl, rfl, rfl, rfl, rfl, rfl, rfl, rfl⟩
  | read a _ ih => simpa using ih

variable (s : State)

/-! ## TRAP by its vector (43_trap.md R100, R101) -/

theorem exec_trap_getc (ign : BitVec 4) : exec (.trap ign 0x20#8) s = .next s.trapEntry.getc := rfl

theorem exec_trap_out (ign : BitVec 4) :
    exec (.trap ign 0x21#8) s = .next (s.trapEntry.emit [lowByte (s.trapEntry.reg 0)]) := rfl

theorem exec_trap_puts (ign : BitVec 4) :
    exec (.trap ign 0x22#8) s = .next (s.trapEntry.print putsWord .puts (s.trapEntry.reg 0)) := rfl

theorem exec_trap_in (ign : BitVec 4) :
    exec (.trap ign 0x23#8) s = .next (s.trapEntry.emit Config.inPrompt).inChar := rfl

theorem exec_trap_putsp (ign : BitVec 4) :
    exec (.trap ign 0x24#8) s = .next (s.trapEntry.print putspWord .putsp (s.trapEntry.reg 0)) := rfl

theorem exec_trap_halt (ign : BitVec 4) : exec (.trap ign 0x25#8) s = .next s.trapEntry.halt := rfl

/-- The valid vectors are the six of R101. -/
theorem validVector_cases {vec : BitVec 8} (h : validVector vec = true) :
    vec = 0x20#8 ∨ vec = 0x21#8 ∨ vec = 0x22#8 ∨ vec = 0x23#8 ∨ vec = 0x24#8 ∨ vec = 0x25#8 := by
  rw [validVector, Bool.and_eq_true, decide_eq_true_eq, decide_eq_true_eq] at h
  bv_omega

theorem exec_trap_effect (ign : BitVec 4) (vec : BitVec 8) :
    ∃ t, exec (.trap ign vec) s = .next t ∧ TrapEffect s ign vec t := by
  cases hvec : validVector vec with
  | false => exact ⟨_, exec_trap_invalid s ign hvec, .invalid hvec⟩
  | true =>
    obtain rfl | rfl | rfl | rfl | rfl | rfl := validVector_cases hvec
    · exact ⟨_, exec_trap_getc s ign, .getc⟩
    · exact ⟨_, exec_trap_out s ign, .out _⟩
    · exact ⟨_, exec_trap_puts s ign, .puts _⟩
    · exact ⟨_, exec_trap_in s ign, .inChar⟩
    · exact ⟨_, exec_trap_putsp s ign, .putsp _⟩
    · exact ⟨_, exec_trap_halt s ign, .halt⟩

/-! ## Every instruction -/

/-- Every instruction answers a next state, with the effect of its family. -/
theorem exec_effect (i : Instr) : ∃ t, exec i s = .next t ∧ Effect s i t := by
  cases i
  case addReg | addImm | andReg | andImm | notReg | lea => exact ⟨_, rfl, .writesReg _ .refl rfl rfl⟩
  case ld | ldr => exact ⟨_, rfl, .writesReg _ (.read _ .refl) rfl rfl⟩
  case ldi => exact ⟨_, rfl, .writesReg _ (.read _ (.read _ .refl)) rfl rfl⟩
  case st | str => exact ⟨_, rfl, .stores _ _ .refl rfl⟩
  case sti => exact ⟨_, rfl, .stores _ _ (.read _ .refl) rfl⟩
  case br nzp off9 => exact ⟨_, exec_br s nzp off9, .branches _ rfl⟩
  case jmp => exact ⟨_, rfl, .branches _ rfl⟩
  case jsr | jsrr => exact ⟨_, rfl, .calls _ rfl⟩
  case trap ign vec =>
    obtain ⟨t, h, he⟩ := exec_trap_effect s ign vec
    exact ⟨t, h, .trap he⟩
  case rti ign => exact ⟨_, rfl, .raises (.inl ⟨ign, rfl⟩)⟩
  case res ign => exact ⟨_, rfl, .raises (.inr ⟨ign, rfl⟩)⟩

theorem effect_of_exec {s t : State} {i : Instr} (h : exec i s = .next t) : Effect s i t := by
  obtain ⟨u, hu, he⟩ := exec_effect s i
  obtain rfl : u = t := Host.Outcome.next.inj (hu.symm.trans h)
  exact he

/-- A routine in progress goes on with its own part, GETC and IN with a key. -/
theorem resume_next_cases {s t : State} {r : Routine} (h : resume r s = .next t) :
    (r = .getc ∧ t = s.getc ∧ s.inq ≠ []) ∨ (r = .inChar ∧ t = s.inChar ∧ s.inq ≠ []) ∨
    (∃ a, r = .puts a ∧ t = s.print putsWord .puts a) ∨ (∃ a, r = .putsp a ∧ t = s.print putspWord .putsp a) := by
  have hkey (hs : s.readChar.isSome = true) : s.inq ≠ [] := fun hq => by simp [s.readChar_nil hq] at hs
  cases r with simp only [resume] at h
  | getc => split at h <;> cases h; exact .inl ⟨rfl, rfl, hkey ‹_›⟩
  | inChar => split at h <;> cases h; exact .inr (.inl ⟨rfl, rfl, hkey ‹_›⟩)
  | puts a => cases h; exact .inr (.inr (.inl ⟨a, rfl, rfl⟩))
  | putsp a => cases h; exact .inr (.inr (.inr ⟨a, rfl, rfl⟩))

end Sys2Proof.Machine
end

section
/-! The invariant. `Sound` is the part of it that speaks neither of the routine in progress nor of PC: every operation of
the machine keeps it in every state. The rest is settled by where a routine may stand at the end of a step. -/

namespace Sys2Proof.Machine

/-- The clauses of `State.Inv` about memory, COND, the keyboard registers, the records and the parameters. -/
structure Sound (s : State) : Prop where
  mem : s.mem.wf = true
  cond : s.cond = flagN ∨ s.cond = flagZ ∨ s.cond = flagP
  kbsr : s.kbsr = 0x8000#16 ∨ s.kbsr = 0x0000#16
  kbdr : highByte s.kbdr = 0x00#8
  diag : ∀ d ∈ s.diag, d.wellFormed
  params : s.params.kbsrAddr ≠ s.params.kbdrAddr

variable {s t : State}

theorem State.Inv.sound (h : s.Inv) : Sound s := ⟨h.mem, h.cond, h.kbsr, h.kbdr, h.diag, h.params⟩

/-- The clauses about a routine hold where there is none. -/
theorem Sound.inv_of_no_routine (h : Sound s) (hr : s.routine = none) : s.Inv where
  mem := h.mem
  cond := h.cond
  kbsr := h.kbsr
  kbdr := h.kbdr
  diag := h.diag
  halted _ := hr
  stands a ha := by simp [hr] at ha
  link hk := absurd hr hk
  params := h.params

/-- A Running state whose R7 holds PC may have a routine in progress, a string at KBSR_ADDR only. -/
theorem Sound.inv_of_running (h : Sound s) (hrun : s.run = .running) (hlink : s.reg 7 = s.pc)
    (hstands : ∀ a, s.routine = some (.puts a) ∨ s.routine = some (.putsp a) → a = s.params.kbsrAddr) : s.Inv where
  mem := h.mem
  cond := h.cond
  kbsr := h.kbsr
  kbdr := h.kbdr
  diag := h.diag
  halted hh := by simp [hrun] at hh
  stands := hstands
  link _ := hlink
  params := h.params

/-! ## The operations keep `Sound` -/

/-- `Sound` looks at six fields only. -/
theorem Sound.congr (h : Sound s) (hmem : t.mem = s.mem) (hcond : t.cond = s.cond) (hkbsr : t.kbsr = s.kbsr)
    (hkbdr : t.kbdr = s.kbdr) (hdiag : t.diag = s.diag) (hparams : t.params = s.params) : Sound t where
  mem := hmem ▸ h.mem
  cond := hcond ▸ h.cond
  kbsr := hkbsr ▸ h.kbsr
  kbdr := hkbdr ▸ h.kbdr
  diag := hdiag ▸ h.diag
  params := hparams ▸ h.params

theorem Sound.setReg (h : Sound s) (i : RegNum) (v : Word) : Sound (s.setReg i v) := h.congr rfl rfl rfl rfl rfl rfl

theorem Sound.setRegCC (h : Sound s) (i : RegNum) (v : Word) : Sound (s.setRegCC i v) :=
  { h with cond := condOf_legal v }

theorem Sound.trapEntry (h : Sound s) : Sound s.trapEntry := h.setReg 7 s.pc

theorem Sound.jump (h : Sound s) (a : Word) : Sound (s.jump a) := h.congr rfl rfl rfl rfl rfl rfl

theorem Sound.emit (h : Sound s) (bs : List Byte) : Sound (s.emit bs) := h.congr rfl rfl rfl rfl rfl rfl

theorem Sound.halt (h : Sound s) : Sound s.halt := h.congr rfl rfl rfl rfl rfl rfl

theorem Sound.setRoutine (h : Sound s) (r : Option Routine) : Sound { s with routine := r } :=
  h.congr rfl rfl rfl rfl rfl rfl

theorem Sound.memWrite (h : Sound s) (a v : Word) : Sound (s.memWrite a v) := by
  obtain ⟨-, -, hcond, hkbsr, hkbdr, -, -, -, hdiag, -, hparams⟩ := s.memWrite_keeps a v
  exact ⟨s.memWrite_wf h.mem a v, hcond ▸ h.cond, hkbsr ▸ h.kbsr, hkbdr ▸ h.kbdr, hdiag ▸ h.diag, hparams ▸ h.params⟩

/-- A key latched into KBDR leaves the high byte 0 (20_memory.md R41). -/
theorem highByte_key (c : Byte) : highByte (c.setWidth 16) = 0x00#8 := by
  apply BitVec.eq_of_getLsbD_eq
  intro k hk
  simp [highByte]

theorem Sound.memRead (h : Sound s) (a : Word) : Sound (s.memRead a).2 := by
  obtain e | ⟨-, e⟩ | ⟨c, rest, -, e⟩ := s.memRead_cases a <;> rw [e]
  · exact h
  · exact { h with kbsr := .inr rfl }
  · exact { h with kbsr := .inl rfl, kbdr := highByte_key c }

theorem Sound.fetch (h : Sound s) : Sound s.fetch.2 := (h.memRead s.pc).congr rfl rfl rfl rfl rfl rfl

theorem Sound.readFrom {u : State} (h : Sound s) (hu : ReadFrom s u) : Sound u := by
  induction hu with
  | refl => exact h
  | read a _ ih => exact ih.memRead a

theorem Sound.raise (h : Sound s) {k : Anomaly} {w : Word} {v : Option Byte}
    (hd : Diag.wellFormed ⟨k, s.pc - 1, w, v⟩) : Sound (s.raise k w v) where
  mem := h.mem
  cond := h.cond
  kbsr := h.kbsr
  kbdr := h.kbdr
  diag d hmem := by
    obtain hmem | hmem := List.mem_append.mp hmem
    · exact h.diag d hmem
    · exact List.mem_singleton.mp hmem ▸ hd
  params := h.params

/-! ## The records (60_exceptions.md R116, R118) -/

theorem opcode_encode (i : Instr) : opcode (encode i) = opcode (rowOf i).fixed :=
  opcode_of_covered (rowOf_mem_opcodeTable i) (covers_encode i)

theorem lowByte_encode_trap (ign : BitVec 4) (vec : BitVec 8) : lowByte (encode (.trap ign vec)) = vec := by
  have h : Instr.trap _ (fieldVect8 _) = _ := readOperands_encode (.trap ign vec)
  injection h

theorem Diag.wellFormed_invalidOpcode {i : Instr} (h : (∃ ign, i = .rti ign) ∨ ∃ ign, i = .res ign) (a : Word) :
    Diag.wellFormed ⟨.invalidOpcode, a, encode i, none⟩ := by
  obtain ⟨ign, rfl⟩ | ⟨ign, rfl⟩ := h
  · exact .inl ⟨rfl, rfl, .inl ((opcode_encode _).trans (by rw [rowOf]; decide))⟩
  · exact .inl ⟨rfl, rfl, .inr ((opcode_encode _).trans (by rw [rowOf]; decide))⟩

theorem Diag.wellFormed_invalidTrapVector (ign : BitVec 4) {vec : BitVec 8} (h : validVector vec = false) (a : Word) :
    Diag.wellFormed ⟨.invalidTrapVector, a, encode (.trap ign vec), some vec⟩ := by
  refine .inr ⟨rfl, ?_, (opcode_encode _).trans (by rw [rowOf]; decide), ?_⟩
  · rw [lowByte_encode_trap]
  · rw [lowByte_encode_trap, h]

/-! ## Where a routine stands at the end of a step (log 10, log 11) -/

theorem Sound.inv_getc (h : Sound s) (hrun : s.run = .running) (hlink : s.reg 7 = s.pc) : s.getc.Inv := by
  obtain ⟨-, e⟩ | ⟨c, rest, -, e⟩ := s.getc_cases <;> rw [e]
  · exact (h.setRoutine _).inv_of_running hrun hlink (by simp)
  · have htaken : Sound { s with inq := rest, routine := none } := h.congr rfl rfl rfl rfl rfl rfl
    exact (htaken.setRegCC 0 _).inv_of_no_routine rfl

theorem Sound.inv_inChar (h : Sound s) (hrun : s.run = .running) (hlink : s.reg 7 = s.pc) : s.inChar.Inv := by
  obtain ⟨-, e⟩ | ⟨c, rest, -, e⟩ := s.inChar_cases <;> rw [e]
  · exact (h.setRoutine _).inv_of_running hrun hlink (by simp)
  · have htaken : Sound { s with inq := rest, routine := none } := h.congr rfl rfl rfl rfl rfl rfl
    exact ((htaken.emit [c]).setRegCC 0 _).inv_of_no_routine rfl

theorem Sound.inv_print (h : Sound s) (hrun : s.run = .running) (hlink : s.reg 7 = s.pc)
    (word : Word → List Byte × Bool) {hold : Word → Routine}
    (hhold : ∀ a b, hold b = .puts a ∨ hold b = .putsp a → a = b) (a : Word) : (s.print word hold a).Inv := by
  have hsound : Sound (s.print word hold a) := State.printWords_induct s word hold (P := Sound)
    (fun _ a hu => hu.memRead a) (fun _ bs hu => hu.emit bs) (fun _ r hu => hu.setRoutine r) _ a h
  obtain ⟨hregs, hpc, -, -, hrun', -⟩ := s.printWords_keeps word hold (wordsToKbsr s.params.kbsrAddr a) a
  have hlink' : (s.print word hold a).reg 7 = (s.print word hold a).pc := by
    rw [State.reg, State.print, hpc, ← hlink]
    simp only [hregs]
    rfl
  obtain hr | hr := s.print_routine word hold a
  · exact hsound.inv_of_no_routine hr
  · refine hsound.inv_of_running (hrun'.trans hrun) hlink' fun b hb => ?_
    rw [hr, Option.some_inj, Option.some_inj] at hb
    rw [State.print_params, hhold b _ hb]

theorem Sound.inv_puts (h : Sound s) (hrun : s.run = .running) (hlink : s.reg 7 = s.pc) (a : Word) :
    (s.print putsWord .puts a).Inv := h.inv_print hrun hlink _ (by simp [eq_comm]) a

theorem Sound.inv_putsp (h : Sound s) (hrun : s.run = .running) (hlink : s.reg 7 = s.pc) (a : Word) :
    (s.print putspWord .putsp a).Inv := h.inv_print hrun hlink _ (by simp [eq_comm]) a

/-! ## Every step -/

/-- A TRAP executed with no routine in progress leaves a state that meets the invariant. -/
theorem Sound.inv_of_trapEffect {ign : BitVec 4} {vec : BitVec 8} (h : Sound s) (hidle : Idle s)
    (he : TrapEffect s ign vec t) : t.Inv := by
  obtain ⟨hrun, hr⟩ := hidle
  have hlink : s.trapEntry.reg 7 = s.trapEntry.pc := by simp
  cases he with
  | getc => exact h.trapEntry.inv_getc hrun hlink
  | out b => exact (h.trapEntry.emit [b]).inv_of_no_routine hr
  | puts a => exact h.trapEntry.inv_puts hrun hlink a
  | inChar => exact (h.trapEntry.emit _).inv_inChar hrun hlink
  | putsp a => exact h.trapEntry.inv_putsp hrun hlink a
  | halt => exact h.trapEntry.halt.inv_of_no_routine hr
  | invalid hvec => exact (h.trapEntry.raise (Diag.wellFormed_invalidTrapVector ign hvec _)).inv_of_no_routine hr

/-- An instruction executed with no routine in progress leaves a state that meets the invariant. -/
theorem Sound.inv_of_effect {i : Instr} (h : Sound s) (hidle : Idle s) (he : Effect s i t) : t.Inv := by
  have hr : s.routine = none := hidle.2
  cases he with
  | writesReg v hu =>
    obtain ⟨-, -, -, -, -, -, -, hroutine, -⟩ := hu.keeps
    exact ((h.readFrom hu).setRegCC _ v).inv_of_no_routine (hroutine.trans hr)
  | @stores _ u a v hu =>
    obtain ⟨-, -, -, -, -, -, -, hroutine, -⟩ := hu.keeps
    obtain ⟨-, -, -, -, -, -, -, -, -, hroutine', -⟩ := u.memWrite_keeps a v
    exact ((h.readFrom hu).memWrite a v).inv_of_no_routine (hroutine'.trans (hroutine.trans hr))
  | branches a => exact (h.jump a).inv_of_no_routine hr
  | calls a => exact ((h.setReg 7 s.pc).jump a).inv_of_no_routine hr
  | raises hi => exact (h.raise (Diag.wellFormed_invalidOpcode hi _)).inv_of_no_routine hr
  | trap he => exact h.inv_of_trapEffect hidle he

/-- Settles O3: a step is one instruction from an idle state, or one part of a routine whose R7 holds PC. -/
theorem stepKeepsTheInvariant : Obligations.StepKeepsTheInvariant := by
  unfold Obligations.StepKeepsTheInvariant
  intro s t hs hstep
  obtain ⟨hrun, ⟨hr, hexec⟩ | ⟨r, hr, hresume⟩⟩ := step_next_cases hstep
  · exact hs.sound.fetch.inv_of_effect ⟨by simpa using hrun, by simpa using hr⟩ (effect_of_exec hexec)
  · have hlink : s.reg 7 = s.pc := hs.link (by simp [hr])
    obtain ⟨-, rfl, -⟩ | ⟨-, rfl, -⟩ | ⟨a, -, rfl⟩ | ⟨a, -, rfl⟩ := resume_next_cases hresume
    · exact hs.sound.inv_getc hrun hlink
    · exact hs.sound.inv_inChar hrun hlink
    · exact hs.sound.inv_puts hrun hlink a
    · exact hs.sound.inv_putsp hrun hlink a

/-! ## Reset, boot and every run -/

/-- Settles O1, field by field. -/
theorem resetHoldsTheSpecValues : Obligations.ResetHoldsTheSpecValues := by
  unfold Obligations.ResetHoldsTheSpecValues
  exact ⟨State.reg_reset, State.peek_reset, rfl, rfl, rfl, rfl, rfl, rfl⟩

/-- Reset is sound with any two different keyboard addresses. -/
theorem Sound.reset {p : Params} (hp : p.kbsrAddr ≠ p.kbdrAddr) : Sound (State.reset.configure p) where
  mem := Memory.wf_reset
  cond := .inr (.inl rfl)
  kbsr := .inr rfl
  kbdr := by rw [State.configure_kbdr]; decide
  diag d hd := nomatch hd
  params := hp

/-- Settles O2: the keyboard registers' addresses are different, and no routine is in progress. -/
theorem resetMeetsTheInvariant : Obligations.ResetMeetsTheInvariant := by
  unfold Obligations.ResetMeetsTheInvariant
  have haddr : Config.params.kbsrAddr ≠ Config.params.kbdrAddr := by decide
  exact (Sound.reset haddr).inv_of_no_routine rfl

theorem Sound.hostWrite (h : Sound s) (a v : Word) : Sound (s.hostWrite a v) :=
  { h with mem := Memory.wf_write h.mem a v }

/-- What every host write keeps, the load of an image keeps. -/
theorem State.loadImage_induct {P : State → Prop} (hwrite : ∀ u a v, P u → P (State.hostWrite u a v)) {s : State}
    (h : P s) (origin : Word) (ws : List Word) : P (s.loadImage origin ws) := by
  induction ws generalizing s origin with
  | nil => exact h
  | cons w ws ih => exact ih (hwrite _ _ _ h) _

/-- What every host write keeps, the load of the images keeps. -/
theorem State.loadImages_induct {P : State → Prop} (hwrite : ∀ u a v, P u → P (State.hostWrite u a v)) {s : State}
    (h : P s) (ims : List (Word × List Word)) : P (s.loadImages ims) := by
  induction ims generalizing s with
  | nil => exact h
  | cons im ims ih => exact ih (State.loadImage_induct hwrite h _ _)

theorem boot_inv {p : Params} (hp : p.kbsrAddr ≠ p.kbdrAddr) (images : List (Word × List Word)) (startPc : Word) :
    (boot p images startPc).Inv := by
  have hloaded := State.loadImages_induct (P := fun u => Sound u ∧ u.routine = none)
    (fun _ a v hu => ⟨hu.1.hostWrite a v, hu.2⟩) ⟨Sound.reset hp, rfl⟩ images
  exact Sound.inv_of_no_routine (hloaded.1.congr rfl rfl rfl rfl rfl rfl) hloaded.2

/-- The host's byte touches the input queue alone. -/
theorem State.Inv.supplyInput (h : s.Inv) (b : Byte) : (s.supplyInput b).Inv where
  mem := h.mem
  cond := h.cond
  kbsr := h.kbsr
  kbdr := h.kbdr
  diag := h.diag
  halted := h.halted
  stands := h.stands
  link := h.link
  params := h.params

/-- Settles O4, by induction on the run: boot, O3 for the CORE's moves, and the host's byte. -/
theorem reachableStatesMeetTheInvariant : Obligations.ReachableStatesMeetTheInvariant := by
  unfold Obligations.ReachableStatesMeetTheInvariant
  intro s hs
  induction hs with
  | boot p images startPc hp => exact boot_inv hp images startPc
  | move _ hmove ih =>
    cases hmove with
    | core hstep => exact stepKeepsTheInvariant _ _ ih hstep
    | supply b _ => exact ih.supplyInput b

end Sys2Proof.Machine
end

section
/-! The streams and the parameters (00_scope.md R8, R9; 60_exceptions.md R118): what every step does to them. -/

namespace Sys2Proof.Machine

/-- From `s` to `t` the output and the records grow at the end, input is taken from the head, and the parameters stay. -/
structure Grows (s t : State) : Prop where
  out : s.out <+: t.out
  diag : s.diag <+: t.diag
  inq : t.inq <:+ s.inq
  params : t.params = s.params

variable {s t u : State}

theorem Grows.of_eq (hout : t.out = s.out) (hdiag : t.diag = s.diag) (hinq : t.inq = s.inq)
    (hparams : t.params = s.params) : Grows s t :=
  ⟨hout ▸ List.prefix_refl _, hdiag ▸ List.prefix_refl _, hinq ▸ List.suffix_refl _, hparams⟩

theorem Grows.trans (h : Grows s t) (h' : Grows t u) : Grows s u :=
  ⟨h.out.trans h'.out, h.diag.trans h'.diag, h'.inq.trans h.inq, h'.params.trans h.params⟩

theorem Grows.memRead (s : State) (a : Word) : Grows s (s.memRead a).2 :=
  ⟨by simp, by simp, s.memRead_inq a, s.memRead_params a⟩

theorem Grows.fetch (s : State) : Grows s s.fetch.2 :=
  (Grows.memRead s s.pc).trans (.of_eq rfl rfl rfl rfl)

theorem ReadFrom.grows (h : ReadFrom s u) : Grows s u := by
  induction h with
  | refl => exact .of_eq rfl rfl rfl rfl
  | read a _ ih => exact ih.trans (.memRead _ a)

theorem Grows.memWrite (s : State) (a v : Word) : Grows s (s.memWrite a v) := by
  obtain ⟨-, -, -, -, -, -, hinq, hout, hdiag, -, hparams⟩ := s.memWrite_keeps a v
  exact .of_eq hout hdiag hinq hparams

theorem Grows.emit (s : State) (bs : List Byte) : Grows s (s.emit bs) :=
  ⟨List.prefix_append _ _, List.prefix_refl _, List.suffix_refl _, rfl⟩

theorem Grows.raise (s : State) (k : Anomaly) (w : Word) (v : Option Byte) : Grows s (s.raise k w v) :=
  ⟨List.prefix_refl _, List.prefix_append _ _, List.suffix_refl _, rfl⟩

theorem Grows.getc (s : State) : Grows s s.getc := by
  obtain ⟨-, e⟩ | ⟨c, rest, hq, e⟩ := s.getc_cases <;> rw [e]
  · exact .of_eq rfl rfl rfl rfl
  · exact ⟨List.prefix_refl _, List.prefix_refl _, hq ▸ List.suffix_cons c rest, rfl⟩

theorem Grows.inChar (s : State) : Grows s s.inChar := by
  obtain ⟨-, e⟩ | ⟨c, rest, hq, e⟩ := s.inChar_cases <;> rw [e]
  · exact .of_eq rfl rfl rfl rfl
  · exact ⟨List.prefix_append _ _, List.prefix_refl _, hq ▸ List.suffix_cons c rest, rfl⟩

theorem Grows.print (s : State) (word : Word → List Byte × Bool) (hold : Word → Routine) (a : Word) :
    Grows s (s.print word hold a) :=
  State.printWords_induct s word hold (P := Grows s) (fun u a hu => hu.trans (.memRead u a))
    (fun u bs hu => hu.trans (.emit u bs)) (fun _ _ hu => ⟨hu.out, hu.diag, hu.inq, hu.params⟩) _ a
    (.of_eq rfl rfl rfl rfl)

theorem TrapEffect.grows {ign : BitVec 4} {vec : BitVec 8} (he : TrapEffect s ign vec t) : Grows s t := by
  have hentry : Grows s s.trapEntry := .of_eq rfl rfl rfl rfl
  refine hentry.trans ?_
  cases he with
  | getc => exact .getc _
  | out b => exact .emit _ _
  | puts a => exact .print _ _ _ a
  | inChar => exact (Grows.emit _ _).trans (.inChar _)
  | putsp a => exact .print _ _ _ a
  | halt => exact .of_eq rfl rfl rfl rfl
  | invalid _ => exact .raise _ _ _ _

theorem Effect.grows {i : Instr} (he : Effect s i t) : Grows s t := by
  cases he with
  | writesReg v hu => exact hu.grows.trans (.of_eq rfl rfl rfl rfl)
  | stores a v hu => exact hu.grows.trans (.memWrite _ a v)
  | branches a => exact .of_eq rfl rfl rfl rfl
  | calls a => exact .of_eq rfl rfl rfl rfl
  | raises _ => exact .raise _ _ _ _
  | trap he => exact he.grows

/-- Settles O15: a step is a fetch and one instruction, or a part of a routine. -/
theorem streamsOnlyGrow : Obligations.StreamsOnlyGrow := by
  unfold Obligations.StreamsOnlyGrow
  intro s t hstep
  have hgrows : Grows s t := by
    obtain ⟨-, ⟨-, hexec⟩ | ⟨r, -, hresume⟩⟩ := step_next_cases hstep
    · exact (Grows.fetch s).trans (effect_of_exec hexec).grows
    · obtain ⟨-, rfl, -⟩ | ⟨-, rfl, -⟩ | ⟨a, -, rfl⟩ | ⟨a, -, rfl⟩ := resume_next_cases hresume
      · exact .getc s
      · exact .inChar s
      · exact .print s _ _ a
      · exact .print s _ _ a
  exact ⟨hgrows.out, hgrows.diag, hgrows.inq, hgrows.params⟩

end Sys2Proof.Machine
end

section
/-! What each family of instructions leaves alone (10_state.md R19, R22 and section 7; 43_trap.md R110): registers, COND,
memory, PC and the diagnostic stream. -/

namespace Sys2Proof.Machine

variable {s t : State}

theorem keepsMem_of_mem (h : t.mem = s.mem) : KeepsMem s t := fun a => by rw [State.peek, h, State.peek]

theorem State.reg_of_regs (h : t.regs = s.regs) (r : RegNum) : t.reg r = s.reg r := by
  simp only [State.reg, h]

theorem State.print_keeps (s : State) (word : Word → List Byte × Bool) (hold : Word → Routine) (a : Word) :
    (∀ r, (s.print word hold a).reg r = s.reg r) ∧ (s.print word hold a).pc = s.pc ∧
    (s.print word hold a).cond = s.cond ∧ (s.print word hold a).mem = s.mem ∧
    (s.print word hold a).run = s.run ∧ (s.print word hold a).diag = s.diag := by
  obtain ⟨hregs, hrest⟩ := s.printWords_keeps word hold (wordsToKbsr s.params.kbsrAddr a) a
  exact ⟨State.reg_of_regs hregs, hrest⟩

/-! ## TRAP -/

section Trap

variable {ign : BitVec 4} {vec : BitVec 8}

/-- A TRAP moves PC nowhere, writes R7 with it, and no cell (R110, R121, R122). -/
theorem TrapEffect.keeps (he : TrapEffect s ign vec t) : t.pc = s.pc ∧ t.reg 7 = s.pc ∧ t.mem = s.mem := by
  cases he with
  | getc =>
    obtain ⟨hreg, hpc, hmem, -⟩ := s.trapEntry.getc_keeps
    exact ⟨hpc, (hreg 7 (by decide)).trans (by simp), hmem⟩
  | inChar =>
    obtain ⟨hreg, hpc, hmem, -⟩ := (s.trapEntry.emit Config.inPrompt).inChar_keeps
    exact ⟨hpc, (hreg 7 (by decide)).trans (by simp), hmem⟩
  | puts a | putsp a =>
    obtain ⟨hreg, hpc, -, hmem, -⟩ := s.trapEntry.print_keeps _ _ a
    exact ⟨hpc, (hreg 7).trans (by simp), hmem⟩
  | out _ | halt | invalid _ => exact ⟨rfl, by simp, rfl⟩

/-- The registers a TRAP may write: R7, and R0 for GETC and IN (R110). -/
theorem TrapEffect.keepsRegs (he : TrapEffect s ign vec t) : KeepsRegs (writtenRegs (.trap ign vec)) s t := by
  have hentry : ∀ r ∉ writtenRegs (.trap ign vec), s.trapEntry.reg r = s.reg r := fun r hr => by
    have h7 : r ≠ 7 := by
      rintro rfl
      exact hr (by rw [writtenRegs]; split <;> simp)
    rw [State.reg_trapEntry, if_neg h7]
  intro r hr
  rw [← hentry r hr]
  cases he with
  | getc =>
    obtain ⟨hreg, -⟩ := s.trapEntry.getc_keeps
    exact hreg r (by rintro rfl; simp [writtenRegs] at hr)
  | inChar =>
    obtain ⟨hreg, -⟩ := (s.trapEntry.emit Config.inPrompt).inChar_keeps
    exact hreg r (by rintro rfl; simp [writtenRegs] at hr)
  | puts a | putsp a =>
    obtain ⟨hreg, -⟩ := s.trapEntry.print_keeps _ _ a
    exact hreg r
  | out _ | halt | invalid _ => rfl

theorem TrapEffect.keepsCond (he : TrapEffect s ign vec t) (h : setsFlags (.trap ign vec) = false) :
    t.cond = s.cond := by
  cases he with
  | getc | inChar => simp [setsFlags] at h
  | puts a | putsp a =>
    obtain ⟨-, -, hcond, -⟩ := s.trapEntry.print_keeps _ _ a
    exact hcond
  | out _ | halt | invalid _ => rfl

/-- A TRAP leaves the records, or has an invalid vector and appends one (R108, 60_exceptions.md R116). -/
theorem TrapEffect.diag_cases (he : TrapEffect s ign vec t) :
    t.diag = s.diag ∨
    (validVector vec = false ∧ ∃ d, t.diag = s.diag ++ [d] ∧ d.anomaly = .invalidTrapVector) := by
  cases he with
  | getc =>
    obtain ⟨-, -, -, -, hdiag, -⟩ := s.trapEntry.getc_keeps
    exact .inl hdiag
  | inChar =>
    obtain ⟨-, -, -, -, hdiag, -⟩ := (s.trapEntry.emit Config.inPrompt).inChar_keeps
    exact .inl hdiag
  | puts a | putsp a =>
    obtain ⟨-, -, -, -, -, hdiag⟩ := s.trapEntry.print_keeps _ _ a
    exact .inl hdiag
  | out _ | halt => exact .inl rfl
  | invalid hvec => exact .inr ⟨hvec, _, rfl, rfl⟩

/-- Only HALT touches the run state (R107). -/
theorem TrapEffect.keepsRun (he : TrapEffect s ign vec t) (h : vec ≠ 0x25#8) : t.run = s.run := by
  cases he with
  | getc => exact s.trapEntry.getc_run
  | inChar => exact (s.trapEntry.emit Config.inPrompt).inChar_run
  | puts a | putsp a => exact s.trapEntry.print_run _ _ a
  | out _ | invalid _ => rfl
  | halt => exact absurd rfl h

end Trap

/-! ## A routine in progress -/

/-- What no part of a routine in progress changes (R110). -/
theorem resume_keeps {r : Routine} (h : resume r s = .next t) :
    KeepsRegs (if r = .getc ∨ r = .inChar then [0] else []) s t ∧ t.mem = s.mem ∧ t.pc = s.pc ∧ t.diag = s.diag ∧
    t.run = s.run := by
  obtain ⟨rfl, rfl, -⟩ | ⟨rfl, rfl, -⟩ | ⟨a, rfl, rfl⟩ | ⟨a, rfl, rfl⟩ := resume_next_cases h
  · obtain ⟨hreg, hpc, hmem, hrun, hdiag, -⟩ := s.getc_keeps
    exact ⟨fun r hr => hreg r (by simpa using hr), hmem, hpc, hdiag, hrun⟩
  · obtain ⟨hreg, hpc, hmem, hrun, hdiag, -⟩ := s.inChar_keeps
    exact ⟨fun r hr => hreg r (by simpa using hr), hmem, hpc, hdiag, hrun⟩
  · obtain ⟨hreg, hpc, -, hmem, hrun, hdiag⟩ := s.print_keeps putsWord .puts a
    exact ⟨fun r _ => hreg r, hmem, hpc, hdiag, hrun⟩
  · obtain ⟨hreg, hpc, -, hmem, hrun, hdiag⟩ := s.print_keeps putspWord .putsp a
    exact ⟨fun r _ => hreg r, hmem, hpc, hdiag, hrun⟩

/-- With a routine in progress a step is a part of the routine. -/
theorem resume_of_step {r : Routine} (hr : s.routine = some r) (h : step s = .next t) : resume r s = .next t := by
  obtain ⟨-, ⟨hnone, -⟩ | ⟨r', hr', hresume⟩⟩ := step_next_cases h
  · simp [hr] at hnone
  · obtain rfl : r = r' := by simpa [hr] using hr'
    exact hresume

/-! ## Every instruction -/

theorem Effect.keepsRegs {i : Instr} (he : Effect s i t) : KeepsRegs (writtenRegs i) s t := by
  intro r hr
  cases he with
  | writesReg v hu hdr =>
    obtain ⟨hregs, -⟩ := hu.keeps
    rw [State.reg_setRegCC, if_neg (by simpa [hdr] using hr), State.reg_of_regs hregs]
  | @stores _ u a v hu =>
    obtain ⟨hregs, -⟩ := hu.keeps
    obtain ⟨hregs', -⟩ := u.memWrite_keeps a v
    exact State.reg_of_regs (hregs'.trans hregs) r
  | branches a => rfl
  | calls a h7 => exact s.reg_setReg_other (by simpa [h7] using hr) s.pc
  | raises _ => rfl
  | trap he => exact he.keepsRegs r hr

/-- Settles O58, by the effect of each family. -/
theorem onlyNamedRegistersAreWritten : Obligations.OnlyNamedRegistersAreWritten := by
  unfold Obligations.OnlyNamedRegistersAreWritten
  exact fun i s t h => (effect_of_exec h).keepsRegs

theorem Effect.keepsCond {i : Instr} (he : Effect s i t) (h : setsFlags i = false) : t.cond = s.cond := by
  cases he with
  | writesReg v hu hdr hflags => simp [hflags] at h
  | @stores _ u a v hu =>
    obtain ⟨-, -, hcond, -⟩ := hu.keeps
    obtain ⟨-, -, hcond', -⟩ := u.memWrite_keeps a v
    exact hcond'.trans hcond
  | branches a | calls a | raises _ => rfl
  | trap he => exact he.keepsCond h

/-- Settles O57: the flag setters aside, no effect writes COND, nor does a part of a string. -/
theorem onlyFlagSettersWriteCond : Obligations.OnlyFlagSettersWriteCond := by
  unfold Obligations.OnlyFlagSettersWriteCond
  refine ⟨fun i s t h => (effect_of_exec h).keepsCond, ?_⟩
  rintro s t a (hr | hr) hstep
  · obtain rfl := Host.Outcome.next.inj (resume_of_step hr hstep)
    obtain ⟨-, -, hcond, -⟩ := s.print_keeps putsWord .puts a
    exact hcond
  · obtain rfl := Host.Outcome.next.inj (resume_of_step hr hstep)
    obtain ⟨-, -, hcond, -⟩ := s.print_keeps putspWord .putsp a
    exact hcond

/-- Settles O59: the stores aside, no effect writes the array. -/
theorem onlyStoresWriteMemory : Obligations.OnlyStoresWriteMemory := by
  unfold Obligations.OnlyStoresWriteMemory
  intro i s t h hstores
  refine keepsMem_of_mem ?_
  cases effect_of_exec h with
  | writesReg v hu =>
    obtain ⟨-, -, -, hmem, -⟩ := hu.keeps
    exact hmem
  | stores a v hu hs => simp [hs] at hstores
  | branches a | calls a | raises _ => rfl
  | trap he => exact he.keeps.2.2

/-- Settles O56, by the effect of each family. -/
theorem execAnswersANextStateWithAtMostOneRecord : Obligations.ExecAnswersANextStateWithAtMostOneRecord := by
  unfold Obligations.ExecAnswersANextStateWithAtMostOneRecord
  intro i s
  obtain ⟨t, hexec, he⟩ := exec_effect s i
  refine ⟨t, hexec, he.grows.params, ?_⟩
  cases he with
  | writesReg v hu =>
    obtain ⟨-, -, -, -, -, -, hdiag, -⟩ := hu.keeps
    exact .inl hdiag
  | @stores _ u a v hu =>
    obtain ⟨-, -, -, -, -, -, hdiag, -⟩ := hu.keeps
    obtain ⟨-, -, -, -, -, -, -, -, hdiag', -⟩ := u.memWrite_keeps a v
    exact .inl (hdiag'.trans hdiag)
  | branches a | calls a => exact .inl rfl
  | raises hi => exact .inr ⟨_, rfl, .inl ⟨rfl, hi⟩⟩
  | @trap ign vec _ he =>
    obtain hdiag | ⟨hvec, d, hdiag, hd⟩ := he.diag_cases
    · exact .inl hdiag
    · exact .inr ⟨d, hdiag, .inr ⟨hd, ign, vec, rfl, hvec⟩⟩

/-- Settles O52: the effect of the TRAP by its vector, then the parts of a routine in progress. -/
theorem trapsKeepR1ToR6AndMemory : Obligations.TrapsKeepR1ToR6AndMemory := by
  unfold Obligations.TrapsKeepR1ToR6AndMemory
  refine ⟨fun s ign vec => ?_, fun s t hr hstep => ?_⟩
  · obtain ⟨t, hexec, he⟩ := exec_trap_effect s ign vec
    obtain ⟨-, hlink, hmem⟩ := he.keeps
    exact ⟨t, hexec, he.keepsRegs, keepsMem_of_mem hmem, hlink⟩
  · obtain ⟨r, hr⟩ := Option.ne_none_iff_exists'.mp hr
    obtain ⟨hregs, hmem, hpc, hdiag, hrun⟩ := resume_keeps (resume_of_step hr hstep)
    simp only [hr, Option.some_inj]
    exact ⟨hregs, keepsMem_of_mem hmem, hpc, hdiag, hrun⟩

/-- Where PC is known, the next step of an idle state fetches there. -/
theorem step_of_idle_at {a : Word} (h : Idle t) (hpc : t.pc = a) :
    step t = exec (decode (t.memRead a).1) { (t.memRead a).2 with pc := a + 1 } := by
  subst hpc
  exact step_of_idle h

/-- Settles O53: no effect of a TRAP and no part of a routine moves PC, so an ended routine leaves an idle state there. -/
theorem trapReturnIsImplicit : Obligations.TrapReturnIsImplicit := by
  unfold Obligations.TrapReturnIsImplicit
  refine ⟨fun s ign => ⟨_, exec_rti s ign, rfl⟩, fun s t hr hstep => ?_, fun s ign vec hs => ?_⟩
  · obtain ⟨r, hr⟩ := Option.ne_none_iff_exists'.mp hr
    obtain ⟨hrun, -⟩ := step_next_cases hstep
    obtain ⟨-, -, hpc, -, hrun'⟩ := resume_keeps (resume_of_step hr hstep)
    exact ⟨hpc, fun hended => step_of_idle_at ⟨hrun'.trans hrun, hended⟩ hpc⟩
  · obtain ⟨t, hexec, he⟩ := exec_trap_effect s ign vec
    obtain ⟨hpc, hlink, -⟩ := he.keeps
    refine ⟨t, hexec, hpc, hlink, fun hvec hended => ?_, ?_⟩
    · exact step_of_idle_at ⟨(he.keepsRun hvec).trans hs.1, hended⟩ hpc
    · rintro rfl
      cases he with
      | halt => exact step_halted rfl
      | invalid hvec => simp [validVector] at hvec

/-- Settles O41: the calls and TRAP link, JMP R7 goes back, and R7 is a register like the others. -/
theorem r7IsTheLinkRegister : Obligations.R7IsTheLinkRegister := by
  unfold Obligations.R7IsTheLinkRegister
  refine ⟨?_, fun s a c => ⟨_, rfl, rfl⟩, fun s v => ⟨s.reg_setReg_same 7 v, fun r hr => s.reg_setReg_other hr v⟩⟩
  rintro s i (⟨off, rfl⟩ | ⟨a, b, c, rfl⟩ | ⟨ign, vec, rfl⟩)
  · exact ⟨_, rfl, s.reg_setReg_same 7 s.pc⟩
  · exact ⟨_, rfl, s.reg_setReg_same 7 s.pc⟩
  · obtain ⟨t, hexec, he⟩ := exec_trap_effect s ign vec
    obtain ⟨-, hlink, -⟩ := he.keeps
    exact ⟨t, hexec, hlink⟩

/-- Settles O11: the fetch through MemRead, PC incremented. -/
theorem stepRunsTheDecodedInstruction : Obligations.StepRunsTheDecodedInstruction := by
  unfold Obligations.StepRunsTheDecodedInstruction
  rintro s i hs rfl
  exact step_of_idle hs

end Sys2Proof.Machine
end

section
/-! AND, NOT and LEA, and the addresses of 30_encoding.md R63: one register write with flags each. -/

namespace Sys2Proof.Machine

/-! ## Sums with a signed offset (20_memory.md R50) -/

/-- A word and a sign-extended offset add up modulo 2^16. -/
theorem toNat_add_sext {n : Nat} (hn : n ≤ 16) (w : Word) (off : BitVec n) :
    ((w + sext off).toNat : Int) = ((w.toNat : Int) + off.toInt) % 65536 := by
  have hval : off.toInt = (sext off).toInt := (sext_toInt hn off).symm
  rw [hval, BitVec.toInt_eq_toNat_cond, BitVec.toNat_add]
  split <;> omega

/-- Settles O18: each effective address is a word and a sign-extended offset. -/
theorem effectiveAddressesWrap : Obligations.EffectiveAddressesWrap := by
  unfold Obligations.EffectiveAddressesWrap
  exact fun s => ⟨toNat_add_sext (by decide) s.pc, toNat_add_sext (by decide) s.pc,
    fun base => toNat_add_sext (by decide) (s.reg base)⟩

/-! ## The instructions -/

variable (s : State)

theorem exec_andReg (dr sr1 : RegNum) (ign : BitVec 2) (sr2 : RegNum) :
    exec (.andReg dr sr1 ign sr2) s = .next (s.setRegCC dr (s.reg sr1 &&& s.reg sr2)) := rfl

theorem exec_andImm (dr sr1 : RegNum) (imm5 : BitVec 5) :
    exec (.andImm dr sr1 imm5) s = .next (s.setRegCC dr (s.reg sr1 &&& sext imm5)) := rfl

theorem exec_notReg (dr sr : RegNum) (ign : BitVec 6) :
    exec (.notReg dr sr ign) s = .next (s.setRegCC dr (~~~ s.reg sr)) := rfl

theorem exec_lea (dr : RegNum) (off9 : BitVec 9) :
    exec (.lea dr off9) s = .next (s.setRegCC dr (s.pcRel off9)) := rfl

/-- Settles O21, bit by bit. -/
theorem andRegisterResultAndFrame : Obligations.AndRegisterResultAndFrame := by
  unfold Obligations.AndRegisterResultAndFrame
  intro s dr sr1 ign sr2
  obtain ⟨t, hexec, hval, hflags, hpc, hrest⟩ := exec_setRegCC_effect s (exec_andReg s dr sr1 ign sr2)
  exact ⟨t, hexec, fun k => by rw [hval, BitVec.getLsbD_and], hflags, hpc, hrest⟩

/-- A word's AND with a sign-extended field, bit by bit: from the field's sign bit on the word meets that bit. -/
theorem getLsbD_and_sext_imm5 (w : Word) (imm5 : BitVec 5) (k : Nat) :
    (w &&& sext imm5).getLsbD k = (w.getLsbD k && imm5.getLsbD (min k 4)) := by
  rw [BitVec.getLsbD_and]
  by_cases hk : k < 16
  · have hmin : (if k < 5 then k else 5 - 1) = min k 4 := by split <;> omega
    rw [sext_getLsbD imm5 hk, hmin]
  · simp [BitVec.getLsbD_of_ge w k (by omega)]

/-- Settles O22, bit by bit. -/
theorem andImmediateResultAndFrame : Obligations.AndImmediateResultAndFrame := by
  unfold Obligations.AndImmediateResultAndFrame
  intro s dr sr1 imm5
  obtain ⟨t, hexec, hval, hflags, hpc, hrest⟩ := exec_setRegCC_effect s (exec_andImm s dr sr1 imm5)
  exact ⟨t, hexec, fun k => by rw [hval, getLsbD_and_sext_imm5], hflags, hpc, hrest⟩

/-- Settles O23: the complement in unsigned arithmetic. -/
theorem notResultAndFrame : Obligations.NotResultAndFrame := by
  unfold Obligations.NotResultAndFrame
  intro s dr sr ign
  obtain ⟨t, hexec, hval, hflags, hpc, hrest⟩ := exec_setRegCC_effect s (exec_notReg s dr sr ign)
  exact ⟨t, hexec, by rw [hval, BitVec.toNat_not], hflags, hpc, hrest⟩

/-- Settles O27: the effective address itself is written. -/
theorem leaResultAndFrame : Obligations.LeaResultAndFrame := by
  unfold Obligations.LeaResultAndFrame
  intro s dr off
  obtain ⟨t, hexec, hval, hflags, hpc, hrest⟩ := exec_setRegCC_effect s (exec_lea s dr off)
  exact ⟨t, hexec, by rw [hval, State.pcRel, toNat_add_sext (by decide)], hflags, hpc, hrest⟩

end Sys2Proof.Machine
end

section
/-! Loads (41_load_store.md R85-R87): a read through the memory port and one register write with flags. -/

namespace Sys2Proof.Machine

variable (s : State)

/-! ## Frames do not see a read -/

section Frames

variable {t : State} (a : Word)

@[simp] theorem keepsRegs_memRead (rs : List RegNum) : KeepsRegs rs (s.memRead a).2 t ↔ KeepsRegs rs s t := by
  simp [KeepsRegs]

@[simp] theorem keepsMem_memRead : KeepsMem (s.memRead a).2 t ↔ KeepsMem s t := by simp [KeepsMem]

@[simp] theorem keepsMemBut_memRead (ea : Word) : KeepsMemBut ea (s.memRead a).2 t ↔ KeepsMemBut ea s t := by
  simp [KeepsMemBut]

@[simp] theorem keepsRun_memRead : KeepsRun (s.memRead a).2 t ↔ KeepsRun s t := by simp [KeepsRun]

@[simp] theorem keepsStreams_memRead : KeepsStreams (s.memRead a).2 t ↔ KeepsStreams s t := by simp [KeepsStreams]

@[simp] theorem plain_memRead (x : Word) : Plain (s.memRead a).2 x ↔ Plain s x := by simp [Plain]

end Frames

/-! ## The load -/

/-- A load: DR holds the word read and COND says its sign; keyboard registers and queue are as the read leaves them, and
the rest stays. -/
theorem State.load_effect (dr : RegNum) (ea : Word) :
    (s.load dr ea).reg dr = (s.memRead ea).1 ∧ FlagsMatch (s.load dr ea) ((s.load dr ea).reg dr) ∧
    (s.load dr ea).pc = s.pc ∧ KeepsRegs [dr] s (s.load dr ea) ∧ KeepsMem s (s.load dr ea) ∧
    KeepsKeyboard (s.memRead ea).2 (s.load dr ea) ∧ KeepsRun s (s.load dr ea) ∧ KeepsStreams s (s.load dr ea) := by
  rw [State.load]
  have hdr : ((s.memRead ea).2.setRegCC dr (s.memRead ea).1).reg dr = (s.memRead ea).1 := by simp
  obtain ⟨hregs, hmem, hkeyboard, hrun, hstreams⟩ := (s.memRead ea).2.setRegCC_keepsRest dr (s.memRead ea).1
  refine ⟨hdr, ?_, by simp, by simpa using hregs, by simpa using hmem, hkeyboard, by simpa using hrun,
    by simpa using hstreams⟩
  rw [hdr]
  exact State.setRegCC_flagsMatch _ dr _

theorem exec_ld (dr : RegNum) (off9 : BitVec 9) : exec (.ld dr off9) s = .next (s.load dr (s.pcRel off9)) := rfl

theorem exec_ldi (dr : RegNum) (off9 : BitVec 9) :
    exec (.ldi dr off9) s = .next ((s.indirect off9).2.load dr (s.indirect off9).1) := rfl

theorem exec_ldr (dr base : RegNum) (off6 : BitVec 6) :
    exec (.ldr dr base off6) s = .next (s.load dr (s.baseOff base off6)) := rfl

/-- Settles O24. -/
theorem ldResultAndFrame : Obligations.LdResultAndFrame := by
  unfold Obligations.LdResultAndFrame
  exact fun s dr off => ⟨_, exec_ld s dr off, s.load_effect dr _⟩

/-- Settles O26: the base is a register of the state before the load. -/
theorem ldrResultAndFrame : Obligations.LdrResultAndFrame := by
  unfold Obligations.LdrResultAndFrame
  exact fun s dr base off => ⟨_, exec_ldr s dr base off, s.load_effect dr _⟩

/-- Settles O25: a load from the state that the pointer read leaves, whose frames do not see that read. -/
theorem ldiResultAndFrame : Obligations.LdiResultAndFrame := by
  unfold Obligations.LdiResultAndFrame
  intro s dr off
  exact ⟨_, exec_ldi s dr off, by simpa [State.indirect] using (s.indirect off).2.load_effect dr (s.indirect off).1⟩

/-! ## Loads by their effective address -/

/-- A read off KBSR_ADDR gives KBDR's held word or the array's, and does nothing (20_memory.md R40, R48). -/
theorem State.memRead_off_kbsr {a : Word} (h : a ≠ s.params.kbsrAddr) :
    s.memRead a = (if a = s.params.kbdrAddr then s.kbdr else s.peek a, s) := by
  rw [State.memRead, if_neg h]
  split <;> rfl

/-- A plain pointer is the array's word, and its read does nothing. -/
theorem State.indirect_plain {off9 : BitVec 9} (h : Plain s (s.pcRel off9)) :
    s.indirect off9 = (s.peek (s.pcRel off9), s) := s.memRead_plain h.1 h.2

/-- LD, LDR, and LDI through a plain pointer load from their effective address. -/
theorem exec_load_at {i : Instr} {dr : RegNum} {ea : Word}
    (h : (∃ off, i = .ld dr off ∧ s.pcRel off = ea) ∨ (∃ base off, i = .ldr dr base off ∧ s.baseOff base off = ea) ∨
      (∃ off, i = .ldi dr off ∧ Plain s (s.pcRel off) ∧ s.peek (s.pcRel off) = ea)) :
    exec i s = .next (s.load dr ea) := by
  obtain ⟨off, rfl, rfl⟩ | ⟨base, off, rfl, rfl⟩ | ⟨off, rfl, hplain, rfl⟩ := h
  · exact exec_ld s dr off
  · exact exec_ldr s dr base off
  · rw [exec_ldi, s.indirect_plain hplain]

/-- The flags of the word that a poll with no key gives. -/
theorem condOf_zero : condOf 0x0000#16 = 0x0002#16 := by decide

/-- The flags of the word that a poll with a key gives. -/
theorem condOf_ready : condOf 0x8000#16 = 0x0004#16 := by decide

/-- Settles O28, by the two answers of a poll. -/
theorem loadFromKbsrPolls : Obligations.LoadFromKbsrPolls := by
  unfold Obligations.LoadFromKbsrPolls
  intro s i dr hi
  have hexec := exec_load_at s hi
  refine ⟨fun hq => ⟨_, hexec, ?_⟩, fun c rest hq => ⟨_, hexec, ?_⟩⟩
  · rw [State.load, s.memRead_kbsr_empty hq]
    exact ⟨by simp, (State.setRegCC_cond _ _ _).trans condOf_zero, rfl, rfl, hq⟩
  · rw [State.load, s.memRead_kbsr_key hq]
    exact ⟨by simp, (State.setRegCC_cond _ _ _).trans condOf_ready, rfl, BitVec.toNat_setWidth_of_le (by decide), rfl⟩

/-- A load off KBSR_ADDR is a register write with flags. -/
theorem State.load_off_kbsr (dr : RegNum) {ea : Word} (h : ea ≠ s.params.kbsrAddr) :
    s.load dr ea = s.setRegCC dr (if ea = s.params.kbdrAddr then s.kbdr else s.peek ea) := by
  rw [State.load, s.memRead_off_kbsr h]

/-- Settles O29. -/
theorem loadElsewhereHasNoSideEffect : Obligations.LoadElsewhereHasNoSideEffect := by
  unfold Obligations.LoadElsewhereHasNoSideEffect
  intro s i dr ea hi hea
  have hexec := exec_load_at s hi
  rw [s.load_off_kbsr dr hea] at hexec
  exact ⟨_, hexec, by simp, s.setRegCC_keepsRest dr _⟩

/-- A load off KBSR_ADDR depends on the array, KBDR's held word and the parameters only. -/
theorem load_reads_same {s u : State} (hmem : u.mem = s.mem) (hkbdr : u.kbdr = s.kbdr) (hparams : u.params = s.params)
    {ea : Word} (h : ea ≠ s.params.kbsrAddr) (dr : RegNum) :
    (u.load dr ea).reg dr = (s.load dr ea).reg dr ∧ (u.load dr ea).cond = (s.load dr ea).cond := by
  rw [u.load_off_kbsr dr (hparams ▸ h), s.load_off_kbsr dr h]
  simp [State.peek, hmem, hkbdr, hparams]

/-- Settles O33: both loads are off KBSR_ADDR, at one address, and LEA touches neither KBDR nor the array. -/
theorem leaThenLdrReadsWhatLdReads : Obligations.LeaThenLdrReadsWhatLdReads := by
  unfold Obligations.LeaThenLdrReadsWhatLdReads
  intro s d e off hea
  have haddr : ((s.setRegCC d (s.pcRel off)).jump (s.pc + 1)).baseOff d 0 = s.pcRel off := by
    simp [State.baseOff, sext]
  have hldr := exec_ldr ((s.setRegCC d (s.pcRel off)).jump (s.pc + 1)) e d 0
  rw [haddr] at hldr
  have hsame := load_reads_same (s := s) (u := (s.setRegCC d (s.pcRel off)).jump (s.pc + 1)) rfl rfl rfl hea e
  exact ⟨_, _, _, exec_lea s d off, hldr, exec_ld s e off, hsame⟩

end Sys2Proof.Machine
end

section
/-! Stores (41_load_store.md R89-R91), and the step after one (R93, 20_memory.md R55). -/

namespace Sys2Proof.Machine

variable (s : State)

/-! ## The store -/

theorem State.peek_memWrite_plain {ea : Word} (h : Plain s ea) (v : Word) : (s.memWrite ea v).peek ea = v := by
  rw [s.memWrite_plain h.1 h.2, State.peek_poke, if_pos rfl]

/-- A store at a keyboard register is discarded (20_memory.md R44). -/
theorem State.memWrite_not_plain {ea : Word} (h : ¬ Plain s ea) (v : Word) : s.memWrite ea v = s :=
  s.memWrite_discarded (by rwa [Plain, not_and_or, not_not, not_not] at h) v

theorem State.memWrite_keepsMemBut (ea v : Word) : KeepsMemBut ea s (s.memWrite ea v) := fun a ha => by
  obtain e | e := s.memWrite_cases ea v <;> rw [e]
  rw [State.peek_poke, if_neg ha]

/-- A store: the cell at a plain address, and nothing else. -/
theorem State.memWrite_effect (ea v : Word) :
    (Plain s ea → (s.memWrite ea v).peek ea = v) ∧ (¬ Plain s ea → (s.memWrite ea v).peek ea = s.peek ea) ∧
    KeepsMemBut ea s (s.memWrite ea v) ∧ KeepsRegs [] s (s.memWrite ea v) ∧ (s.memWrite ea v).cond = s.cond ∧
    (s.memWrite ea v).pc = s.pc ∧ KeepsKeyboard s (s.memWrite ea v) ∧ KeepsRun s (s.memWrite ea v) ∧
    KeepsStreams s (s.memWrite ea v) := by
  obtain ⟨hregs, hpc, hcond, hkbsr, hkbdr, hrun, hinq, hout, hdiag, hroutine, -⟩ := s.memWrite_keeps ea v
  exact ⟨fun h => s.peek_memWrite_plain h v, fun h => by rw [s.memWrite_not_plain h], s.memWrite_keepsMemBut ea v,
    fun r _ => State.reg_of_regs hregs r, hcond, hpc, ⟨hkbsr, hkbdr, hinq⟩, ⟨hrun, hroutine⟩, ⟨hout, hdiag⟩⟩

theorem exec_st (sr : RegNum) (off9 : BitVec 9) :
    exec (.st sr off9) s = .next (s.memWrite (s.pcRel off9) (s.reg sr)) := rfl

theorem exec_sti (sr : RegNum) (off9 : BitVec 9) :
    exec (.sti sr off9) s = .next ((s.indirect off9).2.memWrite (s.indirect off9).1 (s.reg sr)) := by
  rw [← s.reg_memRead (s.pcRel off9) sr]
  rfl

theorem exec_str (sr base : RegNum) (off6 : BitVec 6) :
    exec (.str sr base off6) s = .next (s.memWrite (s.baseOff base off6) (s.reg sr)) := rfl

/-- Settles O30. -/
theorem stResultAndFrame : Obligations.StResultAndFrame := by
  unfold Obligations.StResultAndFrame
  exact fun s sr off => ⟨_, exec_st s sr off, s.memWrite_effect _ _⟩

/-- Settles O32. -/
theorem strResultAndFrame : Obligations.StrResultAndFrame := by
  unfold Obligations.StrResultAndFrame
  exact fun s sr base off => ⟨_, exec_str s sr base off, s.memWrite_effect _ _⟩

/-- Settles O31: a store in the state that the pointer read leaves, whose frames do not see that read. -/
theorem stiResultAndFrame : Obligations.StiResultAndFrame := by
  unfold Obligations.StiResultAndFrame
  intro s sr off
  exact ⟨_, exec_sti s sr off,
    by simpa [State.indirect] using (s.indirect off).2.memWrite_effect (s.indirect off).1 (s.reg sr)⟩

/-! ## The step after a store -/

/-- A fetch from plain storage reads the array and does nothing else. -/
theorem step_of_idle_plain {t : State} {a : Word} (h : Idle t) (hpc : t.pc = a) (hplain : Plain t a) :
    step t = exec (decode (t.peek a)) { t with pc := a + 1 } := by
  rw [step_of_idle_at h hpc, t.memRead_plain hplain.1 hplain.2]

theorem runs_succ_of_step {s t : State} (h : step s = .next t) (n : Nat) : runs (n + 1) s = runs n t := by
  have hcore : Sys2Proof.core.step s = .next t := h
  simp only [runs, Host.Core.run, hcore]
  rfl

theorem add_one_add_one (a : Word) : a + 1 + 1 = a + 2 := by bv_omega

/-- What the step of a store leaves, its address being plain: PC is past it, and the cell holds the word. -/
theorem store_step_leaves {s u : State} (hs : Idle s) (hu : ReadFrom (s.jump (s.pc + 1)) u) {ea : Word}
    (hea : Plain s ea) (v : Word) :
    Idle (u.memWrite ea v) ∧ (u.memWrite ea v).pc = s.pc + 1 ∧ (∀ x, Plain s x → Plain (u.memWrite ea v) x) ∧
    (u.memWrite ea v).peek ea = v ∧ KeepsMemBut ea s (u.memWrite ea v) ∧ (u.memWrite ea v).regs = s.regs := by
  obtain ⟨hregs, hpc, -, hmem, hrun, -, -, hroutine, hparams⟩ := hu.keeps
  obtain ⟨hregs', hpc', -, -, -, hrun', -, -, -, hroutine', hparams'⟩ := u.memWrite_keeps ea v
  have hpeek : ∀ a, u.peek a = s.peek a := keepsMem_of_mem hmem
  have hplain {t : State} (ht : t.params = s.params) (x : Word) (hx : Plain s x) : Plain t x := by rwa [Plain, ht]
  exact ⟨hs.of_keepsRun ⟨hrun'.trans hrun, hroutine'.trans hroutine⟩, hpc'.trans hpc, hplain (hparams'.trans hparams),
    u.peek_memWrite_plain (hplain hparams ea hea) v, fun a ha => (u.memWrite_keepsMemBut ea v a ha).trans (hpeek a),
    hregs'.trans hregs⟩

/-- Settles O34: the LDR's own word is not the one stored to, and its address is plain. -/
theorem storeThenLoadReturnsTheValue : Obligations.StoreThenLoadReturnsTheValue := by
  unfold Obligations.StoreThenLoadReturnsTheValue
  intro s sr base dr off hs hpc hpc1 hstr hldr hea hne
  obtain ⟨t, ht⟩ : ∃ t, t = (s.jump (s.pc + 1)).memWrite (s.baseOff base off) (s.reg sr) := ⟨_, rfl⟩
  have hstep : step s = .next t := by
    rw [step_of_idle_plain hs rfl hpc, hstr, ht]
    rfl
  obtain ⟨hidle, htpc, hplain, hpeek, hbut, hregs⟩ := ht ▸ store_step_leaves hs .refl hea (s.reg sr)
  have haddr : (t.jump (s.pc + 2)).baseOff base off = s.baseOff base off := by
    rw [State.baseOff, State.reg_jump, State.reg_of_regs hregs, State.baseOff]
  have hload : (t.jump (s.pc + 2)).load dr (s.baseOff base off) = (t.jump (s.pc + 2)).setRegCC dr (s.reg sr) := by
    rw [State.load, (t.jump (s.pc + 2)).memRead_plain (hplain _ hea).1 (hplain _ hea).2, State.peek_jump, hpeek]
  have hstep' : step t = .next ((t.jump (s.pc + 2)).setRegCC dr (s.reg sr)) := by
    rw [step_of_idle_plain hidle htpc (hplain _ hpc1), hbut _ hne.symm, hldr, add_one_add_one, ← hload]
    exact haddr ▸ exec_ldr (t.jump (s.pc + 2)) dr base off
  refine ⟨(t.jump (s.pc + 2)).setRegCC dr (s.reg sr), ?_, ?_, State.setRegCC_flagsMatch _ dr _, rfl, hpeek, hbut⟩
  · rw [runs_succ_of_step hstep, runs_succ_of_step hstep']
    rfl
  · simp

/-- Settles O35: an ST, STR or STI stores to the next instruction's word from a state that reads have left. -/
theorem fetchSeesTheStoreBeforeIt : Obligations.FetchSeesTheStoreBeforeIt := by
  unfold Obligations.FetchSeesTheStoreBeforeIt
  intro s i sr hs hpc hpc1 hdecode hi
  obtain ⟨u, hu, hexec⟩ : ∃ u, ReadFrom (s.jump (s.pc + 1)) u ∧
      exec i (s.jump (s.pc + 1)) = .next (u.memWrite (s.pc + 1) (s.reg sr)) := by
    obtain ⟨off, rfl, hea⟩ | ⟨base, off, rfl, hea⟩ | ⟨off, rfl, hea⟩ := hi
    · replace hea : (s.jump (s.pc + 1)).pcRel off = s.pc + 1 := hea
      exact ⟨_, .refl, by rw [exec_st, hea, State.reg_jump]⟩
    · replace hea : (s.jump (s.pc + 1)).baseOff base off = s.pc + 1 := hea
      exact ⟨_, .refl, by rw [exec_str, hea, State.reg_jump]⟩
    · replace hea : ((s.jump (s.pc + 1)).indirect off).1 = s.pc + 1 := hea
      exact ⟨_, .read _ .refl, by rw [exec_sti, hea, State.reg_jump]; rfl⟩
  obtain ⟨hidle, htpc, hplain, hpeek, hbut, -⟩ := store_step_leaves hs hu hpc1 (s.reg sr)
  refine ⟨_, ?_, htpc, hpeek, hbut, ?_⟩
  · rw [step_of_idle_plain hs rfl hpc, hdecode]
    exact hexec
  · rw [step_of_idle_plain hidle htpc (hplain _ hpc1), hpeek, add_one_add_one]

end Sys2Proof.Machine
end

section
/-! Control transfer (42_control.md R94-R98), and the fetch at a keyboard register (70_reset_and_hazards.md R136). -/

namespace Sys2Proof.Machine

/-! ## BR -/

variable (s : State)

theorem State.jump_keepsRest (a : Word) : KeepsRest [] s (s.jump a) :=
  ⟨fun _ _ => rfl, fun _ => rfl, ⟨rfl, rfl, rfl⟩, ⟨rfl, rfl⟩, ⟨rfl, rfl⟩⟩

/-- Settles O36: the mask as the three tests. -/
theorem brTakenWhenAMaskedFlagIsSet : Obligations.BrTakenWhenAMaskedFlagIsSet := by
  unfold Obligations.BrTakenWhenAMaskedFlagIsSet
  intro s nzp off
  refine ⟨_, exec_br s nzp off, fun h => ?_, fun h => ?_, rfl, s.jump_keepsRest _⟩
  · exact if_pos h
  · exact if_neg (Bool.eq_false_iff.mp h)

theorem exec_br_none (off9 : BitVec 9) : exec (.br 0b000#3 off9) s = .next s := by
  have hnone : maskedFlagSet 0b000#3 s.cond = false := by simp [maskedFlagSet]
  rw [exec_br, hnone]
  rfl

/-- Settles O37: no flag is named, or all are and the invariant has one set. -/
theorem brMaskEdges : Obligations.BrMaskEdges := by
  unfold Obligations.BrMaskEdges
  refine ⟨exec_br_none, fun s off hs => ?_⟩
  have hall : maskedFlagSet 0b111#3 s.cond = true := by
    obtain h | h | h := hs.cond <;> rw [h] <;> decide
  rw [exec_br, hall]
  rfl

/-! ## JMP, JSR, JSRR -/

/-- A link and a jump change nothing but R7 and PC. -/
theorem State.link_jump_keepsRest (a : Word) : KeepsRest [7] s ((s.setReg 7 s.pc).jump a) := by
  have hregs : KeepsRegs [7] s ((s.setReg 7 s.pc).jump a) := fun r hr =>
    s.reg_setReg_other (by simpa using hr) s.pc
  exact ⟨hregs, fun _ => rfl, ⟨rfl, rfl, rfl⟩, ⟨rfl, rfl⟩, ⟨rfl, rfl⟩⟩

/-- Settles O38. -/
theorem jmpResultAndFrame : Obligations.JmpResultAndFrame := by
  unfold Obligations.JmpResultAndFrame
  exact fun s ignHi base ignLo => ⟨s.jump (s.reg base), rfl, rfl, rfl, s.jump_keepsRest _⟩

/-- Settles O39: the target is relative to the PC that is linked. -/
theorem jsrResultAndFrame : Obligations.JsrResultAndFrame := by
  unfold Obligations.JsrResultAndFrame
  exact fun s off => ⟨(s.setReg 7 s.pc).jump (s.pcRel off), rfl, s.reg_setReg_same 7 s.pc,
    toNat_add_sext (by decide) s.pc off, rfl, s.link_jump_keepsRest _⟩

/-- Settles O40: the base is read from the state before the link, or from the one after it. -/
theorem jsrrResultAndFrame : Obligations.JsrrResultAndFrame := by
  unfold Obligations.JsrrResultAndFrame
  refine ⟨rfl, fun s ignHi base ignLo => ⟨s.linkJump s.params.jsrrBaseBeforeLink base, rfl,
    s.reg_setReg_same 7 s.pc, fun h => ?_, fun h => ?_, rfl, s.link_jump_keepsRest _⟩⟩
  · rw [h]
    rfl
  · rw [h]
    exact s.reg_setReg 7 base s.pc

/-! ## Fetches at the keyboard registers -/

/-- A word whose high byte is 0 is a BR with mask 000. -/
theorem decode_of_highByte_zero {w : Word} (h : highByte w = 0x00#8) : decode w = .br 0b000#3 (fieldOff9 w) := by
  have hmask : w &&& 0xFF00#16 = 0x0000#16 &&& 0xFF00#16 := by
    apply BitVec.eq_of_getLsbD_eq
    intro k hk
    by_cases hk8 : k < 8
    · interval_cases k <;> simp
    · have hbit : w.getLsbD k = false := by
        have := congrArg (fun x : Byte => x.getLsbD (k - 8)) h
        simpa [highByte, show 8 + (k - 8) = k by omega, show k - 8 < 8 by omega] using this
      simp [hbit]
  have hdr : fieldDR w = 0b000#3 := extract_eq_of_masked hmask (by decide)
  rw [decode_of_covered (.br 0 0) (masked_of_masked hmask (by decide)), readOperands, hdr]

/-- Settles O14: a poll gives 0x0000, a BR that is not taken, or 0x8000, an RTI; KBDR gives the word it holds. -/
theorem fetchAtTheKeyboardRegisters : Obligations.FetchAtTheKeyboardRegisters := by
  unfold Obligations.FetchAtTheKeyboardRegisters
  intro s hs
  refine ⟨fun hpc hq => ?_, fun c rest hpc hq => ?_, fun hpc hne => ?_⟩
  · have hdecode : decode 0x0000#16 = .br 0b000#3 0 := by decide
    rw [step_of_idle_at hs hpc, s.memRead_kbsr_empty hq, hdecode, exec_br_none]
  · have hdecode : decode 0x8000#16 = .rti 0 := by decide
    have hencode : encode (.rti 0) = 0x8000#16 := by decide
    rw [step_of_idle_at hs hpc, s.memRead_kbsr_key hq, hdecode, exec_rti, hencode, State.raise,
      BitVec.add_sub_cancel]
  · have hstep : step s = exec (decode s.kbdr) { s with pc := s.params.kbdrAddr + 1 } := by
      rw [step_of_idle_at hs hpc, s.memRead_kbdr hne]
    exact ⟨hstep, fun hhigh => by rw [hstep, decode_of_highByte_zero hhigh, exec_br_none]⟩

end Sys2Proof.Machine
end

section
/-! Character routines (43_trap.md R102, R103, R105, R107): GETC, OUT, IN and HALT, the held reads, and the two
anomalies' records (60_exceptions.md R118). -/

namespace Sys2Proof.Machine

variable (s : State)

/-! ## A key in R0 -/

theorem zext_byte_toNat (c : Byte) : (zext c).toNat = c.toNat := BitVec.toNat_setWidth_of_le (by decide)

/-- A zero-extended byte is never negative. -/
theorem condOf_zext_byte (c : Byte) : condOf (zext c) = if c = 0x00#8 then 0x0002#16 else 0x0001#16 := by
  have hmsb : (zext c).msb = false := by
    rw [BitVec.msb_eq_getLsbD_last, zext_getLsbD c (by decide)]
    rfl
  have hzero : zext c = 0x0000#16 ↔ c = 0x00#8 := by
    rw [← BitVec.toNat_inj, ← BitVec.toNat_inj, zext_byte_toNat]
    rfl
  simp [condOf, hmsb, hzero, flagZ, flagP]

section Key

variable {c : Byte} {rest : List Byte}

theorem State.getc_empty (h : s.inq = []) : s.getc = { s with routine := some .getc } := by
  rw [State.getc, s.readChar_nil h]

theorem State.inChar_empty (h : s.inq = []) : s.inChar = { s with routine := some .inChar } := by
  rw [State.inChar, s.readChar_nil h]

theorem State.getc_key (h : s.inq = c :: rest) :
    s.getc = { s with inq := rest, routine := none }.setRegCC 0 (zext c) := by
  rw [State.getc, s.readChar_cons h]

/-- IN takes a key as GETC does, and echoes it. -/
theorem State.inChar_key (h : s.inq = c :: rest) : s.inChar = s.getc.emit [c] := by
  rw [State.inChar, s.readChar_cons h, s.getc_key h]
  rfl

/-- A key taken by GETC (R102): R0, COND, and the fields that the read of a key leaves. -/
theorem State.getc_key_effect (h : s.inq = c :: rest) :
    (s.getc.reg 0).toNat = c.toNat ∧ s.getc.cond = (if c = 0x00#8 then 0x0002#16 else 0x0001#16) ∧
    s.getc.inq = rest ∧ s.getc.routine = none ∧ s.getc.kbsr = s.kbsr ∧ s.getc.kbdr = s.kbdr ∧
    KeepsRegs [0] s s.getc ∧ KeepsMem s s.getc := by
  obtain ⟨hreg, -, hmem, -⟩ := s.getc_keeps
  refine ⟨?_, ?_, ?_, ?_, ?_, ?_, fun r hr => hreg r (by simpa using hr), keepsMem_of_mem hmem⟩ <;> rw [s.getc_key h]
  · simp [zext_byte_toNat]
  · exact condOf_zext_byte c
  all_goals rfl

theorem resume_getc_empty (h : s.inq = []) : resume .getc s = .fault .awaitingInput := by
  simp [resume, s.readChar_nil h]

theorem resume_inChar_empty (h : s.inq = []) : resume .inChar s = .fault .awaitingInput := by
  simp [resume, s.readChar_nil h]

theorem resume_getc_key (h : s.inq = c :: rest) : resume .getc s = .next s.getc := by
  simp [resume, s.readChar_cons h]

theorem resume_inChar_key (h : s.inq = c :: rest) : resume .inChar s = .next (s.getc.emit [c]) := by
  simp [resume, s.readChar_cons h, s.inChar_key h]

end Key

/-! ## GETC and IN -/

/-- Settles O42: the key taken by GETC in the state after trap entry, or the routine held there. -/
theorem getcReadsOrIsHeld : Obligations.GetcReadsOrIsHeld := by
  unfold Obligations.GetcReadsOrIsHeld
  intro s ign
  obtain ⟨hpc, hlink, -⟩ := (TrapEffect.getc (s := s) (ign := ign)).keeps
  have hregs := (TrapEffect.getc (s := s) (ign := ign)).keepsRegs
  refine ⟨fun c rest hq hroutine => ⟨_, exec_trap_getc s ign, ?_⟩, fun hq => ⟨_, exec_trap_getc s ign, ?_⟩⟩
  · obtain ⟨hr0, hcond, hinq, hended, hkbsr, hkbdr, -, hmem⟩ := s.trapEntry.getc_key_effect hq
    obtain ⟨-, -, -, hrun, hdiag, hout⟩ := s.trapEntry.getc_keeps
    exact ⟨hr0, hlink, hcond, hinq, hpc, hregs, hmem, hkbsr, hkbdr, ⟨hrun, hended.trans hroutine.symm⟩, ⟨hout, hdiag⟩⟩
  · rw [s.trapEntry.getc_empty hq]
    obtain ⟨hregs, -⟩ := s.trapEntry_keepsRest
    exact ⟨rfl, rfl, s.reg_setReg_same 7 s.pc, rfl, rfl, hregs, fun _ => rfl, ⟨rfl, rfl, rfl⟩, ⟨rfl, rfl⟩⟩

/-- Settles O44: the prompt is out before the key is taken and echoed, or the routine held. -/
theorem inPromptsReadsAndEchoes : Obligations.InPromptsReadsAndEchoes := by
  unfold Obligations.InPromptsReadsAndEchoes
  intro s ign
  obtain ⟨hpc, hlink, -⟩ := (TrapEffect.inChar (s := s) (ign := ign)).keeps
  have hregs := (TrapEffect.inChar (s := s) (ign := ign)).keepsRegs
  refine ⟨fun c rest hq hroutine => ⟨_, exec_trap_in s ign, ?_⟩, fun hq => ⟨_, exec_trap_in s ign, ?_⟩⟩
  · obtain ⟨hr0, hcond, hinq, hended, hkbsr, hkbdr, -, hmem⟩ :=
      (s.trapEntry.emit Config.inPrompt).getc_key_effect hq
    obtain ⟨-, -, -, hrun, hdiag, hout⟩ := (s.trapEntry.emit Config.inPrompt).getc_keeps
    rw [State.inChar_key (s.trapEntry.emit Config.inPrompt) hq] at hlink hpc hregs ⊢
    exact ⟨hr0, hlink, hcond, hinq, congrArg (· ++ [c]) hout, hdiag, hpc, hregs, hmem, hkbsr, hkbdr,
      ⟨hrun, hended.trans hroutine.symm⟩⟩
  · rw [State.inChar_empty (s.trapEntry.emit Config.inPrompt) hq]
    obtain ⟨hregs, -⟩ := s.trapEntry_keepsRest
    exact ⟨rfl, rfl, s.reg_setReg_same 7 s.pc, rfl, rfl, rfl, rfl, hregs, fun _ => rfl, ⟨rfl, rfl, rfl⟩⟩

/-- Settles O45, routine by routine. -/
theorem heldReadEndsWithTheNextKey : Obligations.HeldReadEndsWithTheNextKey := by
  unfold Obligations.HeldReadEndsWithTheNextKey
  intro s r hrun hr hheld
  have hstep := step_resume hrun hr
  refine ⟨fun hq => ?_, fun c rest hq => ?_⟩
  · obtain rfl | rfl := hheld
    · rw [hstep, resume_getc_empty s hq]
    · rw [hstep, resume_inChar_empty s hq]
  · obtain ⟨hr0, hcond, hinq, hended, hkbsr, hkbdr, hregs, hmem⟩ := s.getc_key_effect hq
    obtain ⟨-, hpc, -, hrun', hdiag, hout⟩ := s.getc_keeps
    obtain rfl | rfl := hheld
    · exact ⟨_, hstep.trans (resume_getc_key s hq), hr0, hcond, hinq, by simp [hout], hdiag, hended, hrun', hpc, hregs,
        hmem, hkbsr, hkbdr⟩
    · exact ⟨_, hstep.trans (resume_inChar_key s hq), hr0, hcond, hinq, by simp [hout], hdiag, hended, hrun', hpc,
        hregs, hmem, hkbsr, hkbdr⟩

/-- Settles O13: without a routine a step is an instruction; a string goes on; a held read waits for a key or takes it. -/
theorem runningCoreGoesOnUnlessHeld : Obligations.RunningCoreGoesOnUnlessHeld := by
  unfold Obligations.RunningCoreGoesOnUnlessHeld
  intro s hrun
  cases hr : s.routine with
  | none =>
    obtain ⟨t, hexec, -⟩ := exec_effect s.fetch.2 (decode s.fetch.1)
    exact .inr ⟨by simp, t, (step_fetch hrun hr).trans hexec⟩
  | some r =>
    have hstep := step_resume hrun hr
    by_cases hheld : r = .getc ∨ r = .inChar
    · obtain hq | ⟨c, rest, hq⟩ := s.inq_cases
      · obtain ⟨hwait, -⟩ := heldReadEndsWithTheNextKey s r hrun hr hheld
        refine .inl ⟨hwait hq, by simpa using hheld, hq, fun b => ?_⟩
        obtain ⟨-, hkey⟩ := heldReadEndsWithTheNextKey (s.supplyInput b) r hrun hr hheld
        obtain ⟨t, hstep', -, -, -, -, -, hended, -⟩ := hkey b [] (by simp [hq])
        exact ⟨t, hstep', hended⟩
      · obtain ⟨-, hkey⟩ := heldReadEndsWithTheNextKey s r hrun hr hheld
        obtain ⟨t, hstep', -⟩ := hkey c rest hq
        exact .inr ⟨by simp [hq], t, hstep'⟩
    · refine .inr ⟨by simp [hheld], ?_⟩
      cases r with
      | getc => simp at hheld
      | inChar => simp at hheld
      | puts a => exact ⟨_, hstep⟩
      | putsp a => exact ⟨_, hstep⟩

/-! ## OUT, HALT and the records -/

/-- Settles O43. -/
theorem outEmitsTheLowByte : Obligations.OutEmitsTheLowByte := by
  unfold Obligations.OutEmitsTheLowByte
  intro s ign
  obtain ⟨hregs, hmem, hkeyboard, hrun, -, hdiag⟩ := s.trapEntry_keepsRest
  refine ⟨_, exec_trap_out s ign, ?_, hdiag, s.reg_setReg_same 7 s.pc, rfl, rfl, hregs, hmem, hkeyboard, hrun⟩
  simp [lowByte]

/-- Settles O50: a Halted state has no step. -/
theorem haltStopsTheRun : Obligations.HaltStopsTheRun := by
  unfold Obligations.HaltStopsTheRun
  intro s ign
  obtain ⟨hregs, hmem, hkeyboard, -, hstreams⟩ := s.trapEntry_keepsRest
  exact ⟨_, exec_trap_halt s ign, rfl, step_halted rfl, s.reg_setReg_same 7 s.pc, rfl, rfl, rfl, hregs, hmem, hkeyboard,
    hstreams⟩

/-- A vector below 0x20 or above 0x25 has no routine. -/
theorem validVector_eq_false {vec : BitVec 8} (h : vec.toNat < 0x20 ∨ 0x25 < vec.toNat) : validVector vec = false := by
  rw [validVector, Bool.and_eq_false_iff, decide_eq_false_iff_not, decide_eq_false_iff_not]
  bv_omega

/-- Settles O51: a record raised after trap entry. -/
theorem invalidVectorIsRecorded : Obligations.InvalidVectorIsRecorded := by
  unfold Obligations.InvalidVectorIsRecorded
  intro s ign vec hvec
  obtain ⟨hregs, hmem, hkeyboard, hrun, -⟩ := s.trapEntry_keepsRest
  exact ⟨_, exec_trap_invalid s ign (validVector_eq_false hvec), rfl, rfl, s.reg_setReg_same 7 s.pc, rfl, rfl, hregs, hmem,
    hkeyboard, hrun⟩

/-- Settles O54: a record raised, and nothing else. -/
theorem rtiAndResRecordAndDoNothing : Obligations.RtiAndResRecordAndDoNothing := by
  unfold Obligations.RtiAndResRecordAndDoNothing
  rintro s i hi
  have hexec : exec i s = .next (s.raise .invalidOpcode (encode i) none) := by
    obtain ⟨ign, rfl⟩ | ⟨ign, rfl⟩ := hi
    · exact exec_rti s ign
    · exact exec_res s ign
  exact ⟨_, hexec, rfl, rfl, rfl, rfl, fun _ _ => rfl, fun _ => rfl, ⟨rfl, rfl, rfl⟩, ⟨rfl, rfl⟩⟩

end Sys2Proof.Machine
end

section
/-! Strings (43_trap.md R104, R106, R109): what PUTS and PUTSP print in one step, up to the terminator or to the poll. -/

namespace Sys2Proof.Machine

/-! ## The words of a string -/

theorem putsWord_nonzero {v : Word} (h : v ≠ 0x0000#16) : putsWord v = ([lowByte v], true) := if_neg h

/-- PUTS prints the low byte of each word. -/
theorem puts_bytes {ws : List Word} (h : ∀ v ∈ ws, v ≠ 0x0000#16) :
    (ws.flatMap fun v => (putsWord v).1) = ws.map fun v => v.extractLsb' 0 8 := by
  induction ws with
  | nil => rfl
  | cons w ws ih =>
    obtain ⟨hw, hws⟩ := List.forall_mem_cons.mp h
    rw [List.flatMap_cons, List.map_cons, ih hws, putsWord_nonzero hw]
    rfl

theorem putspWord_two_bytes {v : Word} (h : lowByte v ≠ 0x00#8 ∧ highByte v ≠ 0x00#8) :
    putspWord v = ([lowByte v, highByte v], true) := by
  rw [putspWord, if_neg h.1, if_neg h.2]

/-- PUTSP prints the low byte and then the high byte of each word. -/
theorem putsp_bytes {ws : List Word} (h : ∀ v ∈ ws, lowByte v ≠ 0x00#8 ∧ highByte v ≠ 0x00#8) :
    (ws.flatMap fun v => (putspWord v).1) = ws.flatMap fun v => [v.extractLsb' 0 8, v.extractLsb' 8 8] := by
  induction ws with
  | nil => rfl
  | cons w ws ih =>
    obtain ⟨hw, hws⟩ := List.forall_mem_cons.mp h
    rw [List.flatMap_cons, List.flatMap_cons, ih hws, putspWord_two_bytes hw]
    rfl

/-- A word with a zero byte is PUTSP's last, and is printed up to that byte (D13). -/
theorem putspWord_last {v : Word} (h : lowByte v = 0x00#8 ∨ highByte v = 0x00#8) :
    putspWord v = (if lowByte v = 0x00#8 then [] else [lowByte v], false) := by
  by_cases hlow : lowByte v = 0x00#8
  · simp [putspWord, hlow]
  · simp [putspWord, hlow, h.resolve_left hlow]

/-! ## Strings printed in the step of the TRAP -/

section Trap

variable {s : State} {ws : List Word}

/-- Trap entry leaves R0, and all that a string is read from. -/
theorem wordsAt_trapEntry {a : Word} (h : WordsAt s a ws) : WordsAt s.trapEntry a ws :=
  wordsAt_congr (s := s) (u := s.trapEntry) rfl rfl rfl h

theorem State.trapEntry_reg_zero (s : State) : s.trapEntry.reg 0 = s.reg 0 := by simp

/-- The state after a string that ends: trap entry, the bytes, and no routine in progress. -/
theorem trapEntry_printed_keeps (hr : s.routine = none) (bs : List Byte) :
    ({ s.trapEntry with out := s.out ++ bs, routine := none } : State).reg 7 = s.pc ∧
    KeepsRegs [7] s { s.trapEntry with out := s.out ++ bs, routine := none } ∧
    KeepsMem s { s.trapEntry with out := s.out ++ bs, routine := none } ∧
    KeepsKeyboard s { s.trapEntry with out := s.out ++ bs, routine := none } ∧
    KeepsRun s { s.trapEntry with out := s.out ++ bs, routine := none } := by
  obtain ⟨hregs, hmem, hkeyboard, ⟨hrun, -⟩, -⟩ := s.trapEntry_keepsRest
  exact ⟨s.reg_setReg_same 7 s.pc, hregs, hmem, hkeyboard, ⟨hrun, hr.symm⟩⟩

/-- Settles O46: the string ends at its zero word, before KBSR_ADDR. -/
theorem putsPrintsUpToTheZeroWord : Obligations.PutsPrintsUpToTheZeroWord := by
  unfold Obligations.PutsPrintsUpToTheZeroWord
  intro s ign ws hr hws hne
  have hgo : ∀ v ∈ ws, (putsWord v).2 = true := fun v hv => by rw [putsWord_nonzero (hne v hv)]
  have hexec := exec_trap_puts s ign
  rw [s.trapEntry_reg_zero, State.print_ends _ _ _ (wordsAt_trapEntry hws) hgo rfl, puts_bytes hne] at hexec
  have hlast : (putsWord 0x0000#16).1 = [] := rfl
  rw [hlast, List.append_nil] at hexec
  obtain ⟨hlink, hregs, hmem, hkeyboard, hrun⟩ := trapEntry_printed_keeps hr (ws.map fun v => v.extractLsb' 0 8)
  exact ⟨_, hexec, rfl, rfl, hlink, rfl, rfl, hregs, hmem, hkeyboard, hrun⟩

/-- Settles O47: the string ends at its word with a zero byte, before KBSR_ADDR. -/
theorem putspPrintsUpToTheZeroByte : Obligations.PutspPrintsUpToTheZeroByte := by
  unfold Obligations.PutspPrintsUpToTheZeroByte
  intro s ign ws last hr hws hne hlast
  have hgo : ∀ v ∈ ws, (putspWord v).2 = true := fun v hv => by rw [putspWord_two_bytes (hne v hv)]
  have hend : (putspWord last).2 = false := by rw [putspWord_last hlast]
  have hexec := exec_trap_putsp s ign
  rw [s.trapEntry_reg_zero, State.print_ends _ _ _ (wordsAt_trapEntry hws) hgo hend, putsp_bytes hne,
    putspWord_last hlast, List.append_assoc] at hexec
  obtain ⟨hlink, hregs, hmem, hkeyboard, hrun⟩ := trapEntry_printed_keeps hr
    ((ws.flatMap fun v => [v.extractLsb' 0 8, v.extractLsb' 8 8]) ++ if lowByte last = 0x00#8 then [] else [lowByte last])
  exact ⟨_, hexec, by simp, rfl, hlink, rfl, rfl, hregs, hmem, hkeyboard, hrun⟩

/-- Words that come right up to KBSR_ADDR are as many as the loop reads before it. -/
theorem length_eq_wordsToKbsr {a : Word} (hne : ws ≠ []) (h : WordsAt s a ws)
    (hk : a + BitVec.ofNat 16 ws.length = s.params.kbsrAddr) : ws.length = wordsToKbsr s.params.kbsrAddr a := by
  have hle := wordsAt_length_le h
  have hpos : 0 < ws.length := List.length_pos_iff.mpr hne
  rw [← hk] at hle ⊢
  rw [wordsToKbsr] at hle ⊢
  bv_omega

/-- Settles O48: the loop stops after as many words as come before KBSR_ADDR. -/
theorem stringsStandBeforeKbsr : Obligations.StringsStandBeforeKbsr := by
  unfold Obligations.StringsStandBeforeKbsr
  intro s ign ws hne hws hk
  have hlen := length_eq_wordsToKbsr hne hws hk
  refine ⟨fun hnz => ?_, fun hnz => ?_⟩
  · have hgo : ∀ v ∈ ws, (putsWord v).2 = true := fun v hv => by rw [putsWord_nonzero (hnz v hv)]
    rw [exec_trap_puts, s.trapEntry_reg_zero, State.print_stands _ _ _ (wordsAt_trapEntry hws) hgo hlen, puts_bytes hnz]
    rfl
  · have hgo : ∀ v ∈ ws, (putspWord v).2 = true := fun v hv => by rw [putspWord_two_bytes (hnz v hv)]
    rw [exec_trap_putsp, s.trapEntry_reg_zero, State.print_stands _ _ _ (wordsAt_trapEntry hws) hgo hlen, putsp_bytes hnz]
    rfl

end Trap

/-! ## Strings at KBSR_ADDR -/

section Poll

variable (b : State)

/-- PUTS ends where the poll finds no key. -/
theorem print_puts_kbsr_empty (h : b.inq = []) :
    b.print putsWord .puts b.params.kbsrAddr = { b with kbsr := 0x0000#16, routine := none } := by
  have hword : putsWord 0x0000#16 = ([], false) := by decide
  rw [State.print_kbsr, b.memRead_kbsr_empty h, hword]
  simp [State.emit]

/-- PUTS prints a zero byte where the poll takes a key, and goes on at the next word. -/
theorem print_puts_kbsr_key {c : Byte} {rest : List Byte} (h : b.inq = c :: rest) :
    b.print putsWord .puts b.params.kbsrAddr =
      (({ b with kbsr := 0x8000#16, kbdr := c.setWidth 16, inq := rest } : State).emit [0x00#8]).print putsWord .puts
        (b.params.kbsrAddr + 1) := by
  have hword : putsWord 0x8000#16 = ([0x00#8], true) := by decide
  rw [State.print_kbsr, b.memRead_kbsr_key h, hword]
  rfl

theorem print_putsp_kbsr_empty (h : b.inq = []) :
    b.print putspWord .putsp b.params.kbsrAddr = { b with kbsr := 0x0000#16, routine := none } := by
  have hword : putspWord 0x0000#16 = ([], false) := by decide
  rw [State.print_kbsr, b.memRead_kbsr_empty h, hword]
  simp [State.emit]

/-- PUTSP ends at the zero low byte of 0x8000 (D13). -/
theorem print_putsp_kbsr_key {c : Byte} {rest : List Byte} (h : b.inq = c :: rest) :
    b.print putspWord .putsp b.params.kbsrAddr =
      { b with kbsr := 0x8000#16, kbdr := c.setWidth 16, inq := rest, routine := none } := by
  have hword : putspWord 0x8000#16 = ([], false) := by decide
  rw [State.print_kbsr, b.memRead_kbsr_key h, hword]
  simp [State.emit]

/-- From KBSR_ADDR on, a poll that finds KBSR_ADDR again reads 65,535 words. -/
theorem wordsToKbsr_after_kbsr (k : Word) : wordsToKbsr k (k + 1) = 65535 := by
  rw [wordsToKbsr]
  bv_omega

/-- Settles O49: a TRAP at KBSR_ADDR and a standing routine run the same loop, from `b`. -/
theorem stringsPollKbsr : Obligations.StringsPollKbsr := by
  unfold Obligations.StringsPollKbsr
  intro s b
  refine ⟨fun ign r hr => ?_, fun ign r hr => ?_⟩
  · obtain ⟨hres, hinq, hout, hk⟩ : r = .next (b.print putsWord .puts b.params.kbsrAddr) ∧ b.inq = s.inq ∧
        b.out = s.out ∧ b.params.kbsrAddr = s.params.kbsrAddr := by
      obtain ⟨rfl, h0, rfl⟩ | ⟨rfl, hrun, hroutine, rfl⟩ := hr
      · refine ⟨?_, rfl, rfl, rfl⟩
        rw [exec_trap_puts, s.trapEntry_reg_zero, h0]
        rfl
      · exact ⟨step_resume hrun hroutine, rfl, rfl, rfl⟩
    refine ⟨fun hq => ?_, fun c rest u ws hq hu hne => ?_⟩
    · rw [hres, print_puts_kbsr_empty b (hinq.trans hq)]
    · have hgo : ∀ v ∈ ws, (putsWord v).2 = true := fun v hv => by rw [putsWord_nonzero (hne v hv)]
      have hloop : r = .next ((u.emit [0x00#8]).print putsWord .puts (s.params.kbsrAddr + 1)) := by
        rw [hres, print_puts_kbsr_key b (hinq.trans hq), hk, hu]
      have huout : u.out = s.out := by rw [hu, ← hout]
      have huk : u.params.kbsrAddr = s.params.kbsrAddr := by rw [hu, ← hk]
      refine ⟨fun hws => ?_, fun hws hlen => ?_⟩
      · have hlast : (putsWord 0x0000#16).1 = [] := rfl
        rw [hloop, State.print_ends _ _ _ (wordsAt_emit _ hws) hgo rfl, puts_bytes hne, hlast, List.append_nil,
          State.emit_out, huout]
        rfl
      · have hcount : ws.length = wordsToKbsr (u.emit [0x00#8]).params.kbsrAddr (s.params.kbsrAddr + 1) := by
          rw [hlen, State.emit_params, huk, wordsToKbsr_after_kbsr]
        rw [hloop, State.print_stands _ _ _ (wordsAt_emit _ hws) hgo hcount, puts_bytes hne, State.emit_params, huk,
          State.emit_out, huout]
        rfl
  · obtain ⟨hres, hinq⟩ : r = .next (b.print putspWord .putsp b.params.kbsrAddr) ∧ b.inq = s.inq := by
      obtain ⟨rfl, h0, rfl⟩ | ⟨rfl, hrun, hroutine, rfl⟩ := hr
      · refine ⟨?_, rfl⟩
        rw [exec_trap_putsp, s.trapEntry_reg_zero, h0]
        rfl
      · exact ⟨step_resume hrun hroutine, rfl⟩
    refine ⟨fun hq => ?_, fun c rest hq => ?_⟩
    · rw [hres, print_putsp_kbsr_empty b (hinq.trans hq)]
    · rw [hres, print_putsp_kbsr_key b (hinq.trans hq)]

end Poll

end Sys2Proof.Machine
end
